-- ==== Sys2Proof/Word.lean ====
section
/-! DEFINITION. The word types of the block. Every value is an unsigned bit string of a stated width, bit 0 least
significant (R23); the widths are those of R8's parameter table. -/

namespace Sys2Proof

/-- A device serial, `SERIAL_W` = 20 bits (R15). -/
abbrev Serial := BitVec 20

/-- A status byte (R86, bits 23:16 of a frame). -/
abbrev Status := BitVec 8

/-- A time in seconds since the epoch, `TIME_W` = 64 bits (R20). -/
abbrev Time := BitVec 64

/-- A candidate frame, `FRAME_W` = 64 bits (R11). -/
abbrev Frame := BitVec 64

/-- A frame counter or the run counter, `CNT_W` = `RUN_W` = 32 bits, wrapping modulo 2^32 (R10, R21). -/
abbrev Count := BitVec 32

/-- A 17-bit CRC polynomial (R13). -/
abbrev Poly := BitVec 17

end Sys2Proof
end

