-- ==== Sys2Proof/Config.lean ====
section
/-! DEFINITION. The implementation parameters of 00_scope.md section 4 (R8 to R22). They are fixed for the life of an
instance and no operation writes one (R8, R43). The ones the spec asks a model to keep as arguments are fields of
`Config`; every operation of the machine takes a `Config`, and the instance `Config.hsm` holds the values of R8. -/

namespace Sys2Proof

/-- The parameters of one instance of the block (R8). -/
structure Config where
  /-- `SPB`, samples per chip period (R9). -/
  spb : Nat
  /-- `SYNC_PATTERN` (R12). -/
  syncPattern : BitVec 16
  /-- `POLY_DEF` (R13). -/
  polyDef : Poly
  /-- `POLY_ALT` (R13). -/
  polyAlt : Poly
  /-- `ALARM_MASK` (R16). -/
  alarmMask : Status
  /-- `TAMPER_MASK` (R17). -/
  tamperMask : Status
  /-- `BATTERY_MASK` (R17). -/
  batteryMask : Status
  /-- `HEARTBEAT_SEC` (R19). -/
  heartbeatSec : Nat
  deriving DecidableEq, Repr

namespace Config

/-- `HALF = floor(SPB / 2)` (R9). -/
def half (c : Config) : Nat := c.spb / 2

/-- The instance the spec describes: the "value in this spec" column of R8 (log entry 1: some of these values are the
spec's own decisions or general knowledge). -/
def hsm : Config where
  spb := 8
  syncPattern := 0xFFFE
  polyDef := 0x18005
  polyAlt := 0x18050
  alarmMask := 0xB0
  tamperMask := 0x40
  batteryMask := 0x08
  heartbeatSec := 60

/-- What the spec requires of parameter values: `SPB >= 4` (R9), bit 16 of both polynomials set (R13, the value below
2^17 is their width), and pairwise disjoint status masks (R17). -/
def wf (c : Config) : Bool :=
  decide (4 ≤ c.spb) && c.polyDef.getLsbD 16 && c.polyAlt.getLsbD 16
    && c.alarmMask &&& c.tamperMask == 0
    && c.alarmMask &&& c.batteryMask == 0
    && c.tamperMask &&& c.batteryMask == 0

/-- `ALT_SOF`, the start-of-frame nibbles that select the alternate polynomial (R14). -/
def altSof : List (BitVec 4) := [0x2, 0xA]

/-- `POLY_SHIFT` (R13). -/
def polyShift : Nat := 31

/-- `BASELINE_UNSEEN`, all bits set (R18). -/
def baselineUnseen : Status := 0xFF

/-- `BASE_TOPIC`, OPEN: the spec gives no value (R22; log entry 11). -/
opaque baseTopic : String

/-- `SERIAL_TEXT`, OPEN: how a serial is written inside a topic (R22; log entry 11). -/
opaque serialText : Serial → String

end Config

end Sys2Proof
end

