-- ==== Sys2Proof/Syntax.lean ====
section
/-! DEFINITION. The operations of the block, one constructor per row of spec/opcode_table.json (R92), and the words that
select them. -/

namespace Sys2Proof

/-- The word formats of the operation map (R92, first column). `ctl9` is the input record's control word; the other four
code what one stage hands to the next inside a step (R84, R85, R86, R88). -/
inductive Format where
  | ctl9
  | chip1
  | bit1
  | frame64
  | upd28
  deriving DecidableEq, Repr

/-- The width in bits of a format's words (opcode_table.json, "width"). -/
def Format.width : Format → Nat
  | .ctl9 => 9
  | .chip1 => 1
  | .bit1 => 1
  | .frame64 => 64
  | .upd28 => 28

/-- A word of the operation map: a format and its bits, right-aligned in 64. -/
structure OpWord where
  fmt : Format
  bits : BitVec 64
  deriving DecidableEq, Repr

/-- The operations (R92). Operands are what the row's word leaves free: RESET and SYMX keep the ignored `sym` byte, so
that no bit of an encoding is dropped (log entry 14). -/
inductive Instr where
  /-- RESET (R300): `rst = 1`; `sym` is ignored. -/
  | reset (sym : BitVec 8)
  /-- SYM0 (R112): a valid sample of level 0. -/
  | sym0
  /-- SYM1 (R113): a valid sample of level 1. -/
  | sym1
  /-- SYMX (R114): an invalid sample, `sym` in 0x02 to 0xFF. -/
  | symx (sym : BitVec 8)
  /-- CHIP0 (R131): a recovered chip 0, from ER to LD. -/
  | chip0
  /-- CHIP1 (R132): a recovered chip 1, from ER to LD. -/
  | chip1
  /-- BIT0 (R151): a decoded data bit 0, from LD to FS. -/
  | bit0
  /-- BIT1 (R152): a decoded data bit 1, from LD to FS. -/
  | bit1
  /-- FRAME_ALT (R181): a candidate frame whose `sof` is 0x2 or 0xA, from FS to FV. -/
  | frameAlt (f : Frame)
  /-- FRAME_DEF (R180): a candidate frame with any other `sof`, from FS to FV. -/
  | frameDef (f : Frame)
  /-- UPDATE (R200): a device update, from FV to DT. -/
  | update (serial : Serial) (status : Status)
  deriving DecidableEq, Repr

end Sys2Proof
end

