-- ==== Sys2Proof/Machine/Operands.lean ====
section
/-! DEFINITION. The operand forms: the control word of an input record, the fields of a frame, the polynomial a frame
selects, the two operands of the division, and the notification word. No function here reads the state. -/

namespace Sys2Proof.Machine

/-- The control word `ctl = {rst, sym}` (R80). -/
def ctlWord (rst : Bool) (sym : BitVec 8) : BitVec 9 := BitVec.ofBool rst ++ sym

/-- `f[63:48]`, the synchronization field (R86). -/
def syncOf (f : Frame) : BitVec 16 := f.extractLsb' 48 16

/-- `sof = f[47:44]` (R86, R87). -/
def sofOf (f : Frame) : BitVec 4 := f.extractLsb' 44 4

/-- `serial = f[43:24]` (R86, R87). -/
def serialOf (f : Frame) : Serial := f.extractLsb' 24 20

/-- `status = f[23:16]` (R86, R87). -/
def statusOf (f : Frame) : Status := f.extractLsb' 16 8

/-- `check = f[15:0]` (R86, R87). -/
def checkOf (f : Frame) : BitVec 16 := f.extractLsb' 0 16

/-- `sof ∈ ALT_SOF` (R14). -/
def isAltSof (sof : BitVec 4) : Bool := Config.altSof.contains sof

/-- The polynomial a start-of-frame nibble selects (R172). -/
def selectPoly (c : Config) (sof : BitVec 4) : Poly :=
  if isAltSof sof then c.polyAlt else c.polyDef

/-- The dividend: the synchronization bits masked off (R173). -/
def dividend (f : Frame) : BitVec 64 := f &&& 0x0000FFFFFFFFFFFF

/-- The polynomial as the 64-bit value the division compares with (R96). -/
def polyWord (p : Poly) : BitVec 64 := p.setWidth 64

/-- The first divisor `P << 31` (R174). -/
def firstDivisor (p : Poly) : BitVec 64 := polyWord p <<< Config.polyShift

/-- The shift register with one new bit: `(r << 1) | b`, modulo 2^64 (R153). -/
def shiftIn (r : Frame) (b : Bool) : Frame := (r <<< 1) ||| (BitVec.ofBool b).setWidth 64

/-- The alarm bits `st & ALARM_MASK` (R202). -/
def alarmBits (c : Config) (st : Status) : Status := st &&& c.alarmMask

/-- The notification word `{serial, alarm, tamper, batteryLow}` (R90). -/
def ntfWord (serial : Serial) (alarm tamper batteryLow : Bool) : BitVec 23 :=
  serial ++ (BitVec.ofBool alarm ++ (BitVec.ofBool tamper ++ BitVec.ofBool batteryLow))

end Sys2Proof.Machine
end

