-- ==== Sys2Proof/WellFormed.lean ====
section
/-! DEFINITION. Which terms of `Instr` stand for a word of the operation map (R92). -/

namespace Sys2Proof

/-- An operation is well formed when the operation map has a word for it: a SYMX sample lies outside {0, 1} (R81), and a
candidate frame carries the synchronization pattern and the `sof` its row takes (R92). -/
def Instr.wf (c : Config) : Instr → Bool
  | .reset _ => true
  | .sym0 => true
  | .sym1 => true
  | .symx sym => decide (2 ≤ sym.toNat)
  | .chip0 => true
  | .chip1 => true
  | .bit0 => true
  | .bit1 => true
  | .frameAlt f => Machine.syncOf f == c.syncPattern && Machine.isAltSof (Machine.sofOf f)
  | .frameDef f => Machine.syncOf f == c.syncPattern && !Machine.isAltSof (Machine.sofOf f)
  | .update _ _ => true

end Sys2Proof
end

