-- ==== Sys2Proof/Decode.lean ====
section
/-! DEFINITION. The operation map of R92 as a table of rows, the decoder that reads it, and the encoder written from the
same table. -/

namespace Sys2Proof

/-- Why a word is no operation. -/
inductive DecodeError where
  /-- The word has a bit set above its format's width. -/
  | tooWide (fmt : Format)
  /-- No row of the format matches (only a FRAME64 word without the synchronization pattern, R92). -/
  | noRow (fmt : Format)
  deriving DecidableEq, Repr

/-- One row of the operation map: the word's format, mask and match, and the operation with its operands. -/
structure Row where
  mnemonic : String
  fmt : Format
  mask : BitVec 64
  pattern : BitVec 64
  build : BitVec 64 → Instr

/-- The match value of a FRAME64 row: `SYNC_PATTERN` over the row's own 48 bits (R92). -/
def framePattern (c : Config) (low : BitVec 48) : BitVec 64 := c.syncPattern ++ low

/-- The rows of R92, the rows of one format in increasing `order`. -/
def rows (c : Config) : List Row := [
  ⟨"RESET", .ctl9, 0x100, 0x100, fun w => .reset (w.setWidth 8)⟩,
  ⟨"SYM0", .ctl9, 0x1FF, 0x000, fun _ => .sym0⟩,
  ⟨"SYM1", .ctl9, 0x1FF, 0x001, fun _ => .sym1⟩,
  ⟨"SYMX", .ctl9, 0x100, 0x000, fun w => .symx (w.setWidth 8)⟩,
  ⟨"CHIP0", .chip1, 0x1, 0x0, fun _ => .chip0⟩,
  ⟨"CHIP1", .chip1, 0x1, 0x1, fun _ => .chip1⟩,
  ⟨"BIT0", .bit1, 0x1, 0x0, fun _ => .bit0⟩,
  ⟨"BIT1", .bit1, 0x1, 0x1, fun _ => .bit1⟩,
  ⟨"FRAME_ALT", .frame64, 0xFFFF700000000000, framePattern c 0x200000000000, fun w => .frameAlt w⟩,
  ⟨"FRAME_DEF", .frame64, 0xFFFF000000000000, framePattern c 0x000000000000, fun w => .frameDef w⟩,
  ⟨"UPDATE", .upd28, 0x0, 0x0, fun w => .update (w.extractLsb' 8 20) (w.extractLsb' 0 8)⟩]

/-- A row selects a word of its format when `(word & mask) == match` (R92). -/
def Row.selects (w : OpWord) (r : Row) : Bool :=
  r.fmt == w.fmt && w.bits &&& r.mask == r.pattern

/-- The decoder: the first row of the word's format that selects it (R92). Total on every word; what is no operation is
rejected by name. -/
def decode (c : Config) (w : OpWord) : Except DecodeError Instr :=
  if 2 ^ w.fmt.width ≤ w.bits.toNat then .error (.tooWide w.fmt)
  else
    match (rows c).find? (Row.selects w) with
    | some r => .ok (r.build w.bits)
    | none => .error (.noRow w.fmt)

/-- The word of an operation, from the rows of R92 and the field layouts of R80, R86 and R88. -/
def encode : Instr → OpWord
  | .reset sym => ⟨.ctl9, (Machine.ctlWord true sym).setWidth 64⟩
  | .sym0 => ⟨.ctl9, 0x000⟩
  | .sym1 => ⟨.ctl9, 0x001⟩
  | .symx sym => ⟨.ctl9, (Machine.ctlWord false sym).setWidth 64⟩
  | .chip0 => ⟨.chip1, 0⟩
  | .chip1 => ⟨.chip1, 1⟩
  | .bit0 => ⟨.bit1, 0⟩
  | .bit1 => ⟨.bit1, 1⟩
  | .frameAlt f => ⟨.frame64, f⟩
  | .frameDef f => ⟨.frame64, f⟩
  | .update serial status => ⟨.upd28, (serial ++ status).setWidth 64⟩

/-- The format a bare word of `nbits` bits is read in: the table's widths 9, 1, 64 and 28, alone or in whole bytes. A
word of one bit (one byte) is read as CHIP1, though BIT1 has the same words (log entry 7). -/
def formatOfBits (nbits : Nat) : Option Format :=
  if nbits = 9 ∨ nbits = 16 then some .ctl9
  else if nbits = 1 ∨ nbits = 8 then some .chip1
  else if nbits = 28 ∨ nbits = 32 then some .upd28
  else if nbits = 64 then some .frame64
  else none

/-- The decoder on a table word given by its width and its bits (log entry 7). -/
def decodeTableWord (nbits w : Nat) : Option Instr :=
  match formatOfBits nbits with
  | none => none
  | some fmt =>
    if 2 ^ 64 ≤ w then none
    else
      match decode Config.hsm ⟨fmt, BitVec.ofNat 64 w⟩ with
      | .ok i => some i
      | .error _ => none

end Sys2Proof
end

