-- ==== Sys2Proof/Machine/State.lean ====
section
/-! DEFINITION. The state of one instance (10_state.md), its reset values, and the reasons a step can stop. The first
seven fields of `State` are R30's whole state vector; the last four are the MODEL's own: the records the host has still to
be served, an operation handed to a stage from outside, and the ports of the step (log entries 2 to 5). -/

namespace Sys2Proof.Machine

/-- The four states of the Line Decoder (R33). Their 2-bit code is `LdState.code` in Machine/LineDecoder.lean (log entry
18). -/
inductive LdState where
  | lowA
  | lowB
  | highA
  | highB
  deriving DecidableEq, Repr

/-- One entry of the device table (R38). -/
structure DevEntry where
  valid : Bool
  lastRawState : Status
  alarmBaseline : Status
  alarm : Bool
  tamper : Bool
  batteryLow : Bool
  lastUpdateTime : Time
  lastAlarmTime : Time
  deriving DecidableEq, Repr

/-- `EMPTY` (R39). -/
def DevEntry.empty : DevEntry where
  valid := false
  lastRawState := 0
  alarmBaseline := Config.baselineUnseen
  alarm := false
  tamper := false
  batteryLow := false
  lastUpdateTime := 0
  lastAlarmTime := 0

/-- The device table, the block's only memory (R60), as (serial, entry) pairs. A serial that is not listed reads as
`EMPTY`, its reset contents (R47). Entries are whole, never bytes (R62; log entry 8). -/
abbrev Memory := List (Nat × DevEntry)

/-- The input record `In = {rst, sym, now}` of a step (R80). -/
structure InRecord where
  rst : Bool
  sym : BitVec 8
  now : Time
  deriving DecidableEq, Repr

/-- The frame outcome of a step (R89, `frm_code` and `frm_data`). -/
inductive FrameOutcome where
  | none
  | ok (f : Frame)
  | bad (f : Frame)
  deriving DecidableEq, Repr

/-- The output record of a step (R89). An event field is `none` when its event did not happen; Machine/Output.lean gives
the port bits (log entry 5). -/
structure OutRecord where
  chip : Option Bool
  bit : Option Bool
  frame : FrameOutcome
  upd : Option (Serial × Status)
  ntf : Option (BitVec 23)
  cntTotal : Count
  cntInvalid : Count
  deriving DecidableEq, Repr

/-- The output record with every event field at its none value and both counters 0 (R89, R300). -/
def OutRecord.blank : OutRecord where
  chip := none
  bit := none
  frame := .none
  upd := none
  ntf := none
  cntTotal := 0
  cntInvalid := 0

/-- The machine state. -/
structure State where
  /-- `er_prev`, 1 bit (R31). -/
  erPrev : Bool
  /-- `er_run`, 32 bits (R32). -/
  erRun : Count
  /-- `ld_state`, 2 bits, held as the state it names (R33; `State.ldReg` is the register, log entry 18). -/
  ldState : LdState
  /-- `fs_shreg`, 64 bits (R34). -/
  fsShreg : Frame
  /-- `cnt_total`, 32 bits (R35). -/
  cntTotal : Count
  /-- `cnt_invalid`, 32 bits (R36). -/
  cntInvalid : Count
  /-- `dev`, 2^20 entries (R37). -/
  dev : Memory
  /-- MODEL's own: the input records not yet consumed, the next one first (log entry 2). -/
  inputs : List InRecord
  /-- MODEL's own: an operation handed straight to its stage, run before the next record (log entry 3). -/
  direct : Option OpWord
  /-- MODEL's own: the time input of the step that is running, 0 between steps (log entry 4). -/
  now : Time
  /-- MODEL's own: the output record of the step that is running or has just ended (log entry 5). -/
  out : OutRecord
  deriving DecidableEq, Repr

/-- The state right after RESET (R47), no record waiting (log entry 9 for the model's own fields). -/
def State.reset : State where
  erPrev := false
  erRun := 0
  ldState := .lowA
  fsShreg := 0
  cntTotal := 0
  cntInvalid := 0
  dev := []
  inputs := []
  direct := none
  now := 0
  out := OutRecord.blank

/-- The faults of the block: there are none. "The block raises no exception, takes no trap and has no fault state" (R260),
so the type has no constructor. -/
inductive Fault where
  deriving DecidableEq, Repr

/-- Why a step has no meaning. -/
inductive Refusal where
  /-- Raised by an arm of `exec` whose operation has no meaning yet: safe, the model stops. No arm raises it. -/
  | notModelled (mnemonic : String)
  /-- Raised by `step` alone, for a word in `direct` that is no word of the operation map (R92): safe. No record of the
  host can raise it, since every CTL9 word selects a row (log entry 6). -/
  | noOperation (fmt : Format)
  deriving DecidableEq, Repr

end Sys2Proof.Machine
end

