-- ==== Sys2Proof/Machine/Flags.lean ====
section
/-! DEFINITION. The per-device flags and the values computed with them: the block's only flags are `alarm`, `tamper` and
`batteryLow` of a device entry (R42). -/

namespace Sys2Proof.Machine

/-- The baseline after step 3: lowered to the alarm bits when these are below it, unsigned (R203). -/
def lowerBaseline (ab baseline : Status) : Status := if ab < baseline then ab else baseline

/-- `alarm` (R204): the alarm bits strictly above the baseline, as unsigned numbers. -/
def alarmFlag (ab baseline : Status) : Bool := decide (baseline < ab)

/-- `tamper` (R205). -/
def tamperFlag (c : Config) (st : Status) : Bool := st &&& c.tamperMask != 0

/-- `batteryLow` (R205). -/
def batteryFlag (c : Config) (st : Status) : Bool := st &&& c.batteryMask != 0

/-- The heartbeat test `int(now) - int(lastUpdateTime) > HEARTBEAT_SEC` on unbounded integers (R207 clause 3). -/
def heartbeatDue (c : Config) (now last : Time) : Bool :=
  decide ((now.toNat : Int) - (last.toNat : Int) > (c.heartbeatSec : Int))

end Sys2Proof.Machine
end

