-- ==== Sys2Proof/Machine/Ops.lean ====
section
/-! DEFINITION. The shared operations: the device table's whole-entry accesses, the writes of the registers, the emissions
onto the output record, the highest-set-bit primitive, and what a step does around an operation. The block has no
exception to take and none to return from (R260, R267), so there is no operation for either. -/

namespace Sys2Proof.Machine

/-! The device table (R60 to R65). -/

/-- The entry listed at a serial number, `EMPTY` if none is. -/
def Memory.readAt : Memory → Nat → DevEntry
  | [], _ => DevEntry.empty
  | (k, e) :: m, a => if k = a then e else Memory.readAt m a

/-- `DevRead(s)`: the whole entry at serial s, without side effect (R25, R62, R64). -/
def Memory.read (m : Memory) (s : Serial) : DevEntry := m.readAt s.toNat

/-- The table with entry e listed at a, in rising order of serial. -/
def Memory.insertAt : Memory → Nat → DevEntry → Memory
  | [], a, e => [(a, e)]
  | (k, x) :: m, a, e =>
    if a < k then (a, e) :: (k, x) :: m
    else if a = k then (a, e) :: m
    else (k, x) :: Memory.insertAt m a e

/-- `DevWrite(s, e)`: the whole entry at serial s replaced (R25, R62). An `EMPTY` entry is not listed. -/
def Memory.write (m : Memory) (s : Serial) (e : DevEntry) : Memory :=
  if e = DevEntry.empty then m.filter (fun ke => ke.1 != s.toNat) else m.insertAt s.toNat e

/-- The canonical form: serials strictly rising and below 2^20, no `EMPTY` entry listed. -/
def Memory.wf (m : Memory) : Bool :=
  decide ((m.map Prod.fst).Pairwise (· < ·))
    && m.all (fun ke => decide (ke.1 < 2 ^ 20) && ke.2 != DevEntry.empty)

/-! Writes of the registers (R30). -/

namespace State

def setEr (s : State) (prev : Bool) (run : Count) : State := { s with erPrev := prev, erRun := run }

def setLd (s : State) (l : LdState) : State := { s with ldState := l }

def setShreg (s : State) (r : Frame) : State := { s with fsShreg := r }

def setCounts (s : State) (total invalid : Count) : State := { s with cntTotal := total, cntInvalid := invalid }

def setDev (s : State) (m : Memory) : State := { s with dev := m }

def setOut (s : State) (o : OutRecord) : State := { s with out := o }

/-! Emissions (`emit PORT(v)`, R25): one field of the step's output record. -/

def emitChip (s : State) (v : Bool) : State := s.setOut { s.out with chip := some v }

def emitBit (s : State) (b : Bool) : State := s.setOut { s.out with bit := some b }

def emitFrame (s : State) (o : FrameOutcome) : State := s.setOut { s.out with frame := o }

def emitUpd (s : State) (serial : Serial) (status : Status) : State :=
  s.setOut { s.out with upd := some (serial, status) }

def emitNtf (s : State) (w : BitVec 23) : State := s.setOut { s.out with ntf := some w }

end State

/-! The highest set bit (R24). -/

/-- The highest index below n whose bit is 1. -/
def msbFrom : Nat → BitVec 64 → Option Nat
  | 0, _ => none
  | n + 1, v => if v.getLsbD n then some n else msbFrom n v

/-- `msb(v)`: the index of the most significant bit that is 1; `none` is R24's `NONE`. -/
def msb (v : BitVec 64) : Option Nat := msbFrom 64 v

/-! What a step does around its operation. -/

/-- The word of the next operation, and the state it runs in: the operation handed in `direct` if there is one, else the
control word of the next input record, with its `now` on the time input (R80, R83). The output record starts with every
field at its none value (R89). -/
def fetch (s : State) : Option (OpWord × State) :=
  match s.direct with
  | some w => some (w, { s with direct := none, out := OutRecord.blank })
  | none =>
    match s.inputs with
    | [] => none
    | r :: rest =>
      some (⟨.ctl9, (ctlWord r.rst r.sym).setWidth 64⟩, { s with inputs := rest, now := r.now, out := OutRecord.blank })

/-- The end of a step: the record shows the counters as they now stand (R89), and the time input is not kept (R48). -/
def finish (s : State) : State :=
  { s with now := 0, out := { s.out with cntTotal := s.cntTotal, cntInvalid := s.cntInvalid } }

/-- No record presented: every register and entry keeps its value (R274), and the output events of the step before are
gone (R305; log entry 5). -/
def idle (s : State) : State := finish (s.setOut OutRecord.blank)

end Sys2Proof.Machine
end

