-- ==== Sys2Proof/Machine/Tracker.lean ====
section
/-! DEFINITION. The Device State Tracker: UPDATE (44_device_tracker.md). -/

namespace Sys2Proof.Machine

/-- Step 1: an entry not yet sighted is taken as `EMPTY` with `valid` set (R201). -/
def sighted (e : DevEntry) : DevEntry :=
  if e.valid then e else { DevEntry.empty with valid := true }

/-- Steps 2 to 6 and 8 on the entry of step 1 (R202 to R206, R209). -/
def trackEntry (c : Config) (st : Status) (now : Time) (e : DevEntry) : DevEntry :=
  let ab := alarmBits c st
  let baseline := lowerBaseline ab e.alarmBaseline
  let alarm := alarmFlag ab baseline
  { valid := e.valid
    lastRawState := st
    alarmBaseline := baseline
    alarm := alarm
    tamper := tamperFlag c st
    batteryLow := batteryFlag c st
    lastUpdateTime := now
    lastAlarmTime := if alarm && !e.alarm then now else e.lastAlarmTime }

/-- Step 7: the decision to notify, on the entry as the table held it (R207). -/
def notifies (c : Config) (st : Status) (now : Time) (stored : DevEntry) : Bool :=
  !stored.valid || st != (sighted stored).lastRawState || heartbeatDue c now (sighted stored).lastUpdateTime

/-- The notification word of an entry (R208). -/
def entryWord (serial : Serial) (e : DevEntry) : BitVec 23 := ntfWord serial e.alarm e.tamper e.batteryLow

/-- `UPDATE(s, st, now)` (R200). -/
def opUpdate (c : Config) (serial : Serial) (st : Status) (s : State) : State :=
  let stored := s.dev.read serial
  let e := trackEntry c st s.now (sighted stored)
  let s' := if notifies c st s.now stored then s.emitNtf (entryWord serial e) else s
  s'.setDev (s'.dev.write serial e)

/-- UPDATE (R200). -/
def execUpdate (serial : Serial) (st : Status) (s : State) : Host.Outcome State Fault Refusal :=
  .next (opUpdate Config.hsm serial st s)

end Sys2Proof.Machine
end

