-- ==== Sys2Proof/Machine/Validator.lean ====
section
/-! DEFINITION. The Frame Validator: FRAME_DEF and FRAME_ALT (43_frame_validator.md). -/

namespace Sys2Proof.Machine

/-- One body of the division loop, before the divisor's shift: the dividend is XORed with the divisor when their highest
set bits agree; a zero dividend has none (R175). -/
def divStep (sum div : BitVec 64) : BitVec 64 :=
  if sum ≠ 0 ∧ msb sum = msb div then sum ^^^ div else sum

/-- The division loop `while div >= P` (R175), at most `fuel` bodies. -/
def divLoop (p : BitVec 64) : Nat → BitVec 64 → BitVec 64 → BitVec 64
  | 0, sum, _ => sum
  | fuel + 1, sum, div => if p ≤ div then divLoop p fuel (divStep sum div) (div >>> 1) else sum

/-- How many bodies the loop runs, at most `fuel` (R185). -/
def divCount (p : BitVec 64) : Nat → BitVec 64 → Nat
  | 0, _ => 0
  | fuel + 1, div => if p ≤ div then divCount p fuel (div >>> 1) + 1 else 0

/-- More bodies than a 64-bit divisor can be shifted before it is 0, so that the bound never ends the loop for a non-zero
polynomial (log entry 13). -/
def divFuel : Nat := 64

/-- The value of `sum` after the loop of R173 to R175. -/
def remainder (p : Poly) (f : Frame) : BitVec 64 :=
  divLoop (polyWord p) divFuel (dividend f) (firstDivisor p)

/-- The verdict `sum == 0`, with the polynomial the frame's `sof` selects (R172, R176). -/
def frameValid (c : Config) (f : Frame) : Bool := remainder (selectPoly c (sofOf f)) f == 0

/-- `FV_VALID(f, serial, status)` (R178). -/
def fvValid (c : Config) (f : Frame) (s : State) : State :=
  opUpdate c (serialOf f) (statusOf f)
    (((s.setCounts (s.cntTotal + 1) s.cntInvalid).emitFrame (.ok f)).emitUpd (serialOf f) (statusOf f))

/-- `FV_INVALID(f)` (R179). -/
def fvInvalid (f : Frame) (s : State) : State :=
  (s.setCounts (s.cntTotal + 1) (s.cntInvalid + 1)).emitFrame (.bad f)

/-- `FV_FRAME(f)` (R177). -/
def fvFrame (c : Config) (f : Frame) (s : State) : State :=
  if frameValid c f then fvValid c f s else fvInvalid f s

/-- FRAME_ALT: `FV_FRAME(f)` (R181; log entry 12). -/
def opFrameAlt (c : Config) (f : Frame) (s : State) : State := fvFrame c f s

/-- FRAME_DEF: `FV_FRAME(f)` (R180; log entry 12). -/
def opFrameDef (c : Config) (f : Frame) (s : State) : State := fvFrame c f s

/-- FS hands FV a frame: FRAME_ALT when `sof ∈ ALT_SOF` and FRAME_DEF otherwise (R86). -/
def callFrame (c : Config) (f : Frame) (s : State) : State :=
  if isAltSof (sofOf f) then opFrameAlt c f s else opFrameDef c f s

/-- FRAME_ALT (R181). -/
def execFrameAlt (f : Frame) (s : State) : Host.Outcome State Fault Refusal := .next (opFrameAlt Config.hsm f s)

/-- FRAME_DEF (R180). -/
def execFrameDef (f : Frame) (s : State) : Host.Outcome State Fault Refusal := .next (opFrameDef Config.hsm f s)

end Sys2Proof.Machine
end

