-- ==== Sys2Proof/Machine/FrameSync.lean ====
section
/-! DEFINITION. The Frame Synchronizer: BIT0 and BIT1 (42_frame_sync.md). -/

namespace Sys2Proof.Machine

/-- `FS_BIT(b)` (R153): shift, compare the top 16 bits, and on a match clear the register and hand the frame on. -/
def fsBit (c : Config) (b : Bool) (s : State) : State :=
  let f := shiftIn s.fsShreg b
  if syncOf f = c.syncPattern then callFrame c f (s.setShreg 0) else s.setShreg f

/-- BIT0: `FS_BIT(0)` (R151). -/
def opBit0 (c : Config) (s : State) : State := fsBit c false s

/-- BIT1: `FS_BIT(1)` (R152). -/
def opBit1 (c : Config) (s : State) : State := fsBit c true s

/-- LD hands FS a bit: BIT0 or BIT1 (R85). -/
def callBit (c : Config) (b : Bool) (s : State) : State := if b then opBit1 c s else opBit0 c s

/-- BIT0 (R151). -/
def execBit0 (s : State) : Host.Outcome State Fault Refusal := .next (opBit0 Config.hsm s)

/-- BIT1 (R152). -/
def execBit1 (s : State) : Host.Outcome State Fault Refusal := .next (opBit1 Config.hsm s)

end Sys2Proof.Machine
end

