-- ==== Sys2Proof/Machine/LineDecoder.lean ====
section
/-! DEFINITION. The Line Decoder: the code of its state register, and CHIP0 and CHIP1 (41_line_decoder.md). -/

namespace Sys2Proof.Machine

/-- The level of a decoder state, `Low` (0) or `High` (1) (R33). -/
def LdState.level : LdState → Bool
  | .lowA => false
  | .lowB => false
  | .highA => true
  | .highB => true

/-- The phase of a decoder state, A (0) or B (1) (R33). -/
def LdState.phase : LdState → Bool
  | .lowA => false
  | .lowB => true
  | .highA => false
  | .highB => true

/-- The 2-bit code of a decoder state in the `ld_state` register (R33, decision D16; log entry 18). -/
def LdState.code : LdState → BitVec 2
  | .lowA => 0b00
  | .lowB => 0b01
  | .highA => 0b10
  | .highB => 0b11

/-- The state a value of the `ld_state` register names: "every 2-bit value names a state" (R33). -/
def LdState.ofCode (r : BitVec 2) : LdState :=
  match r.getLsbD 1, r.getLsbD 0 with
  | false, false => .lowA
  | false, true => .lowB
  | true, false => .highA
  | true, true => .highB

/-- The value of the 2-bit `ld_state` register (R30, R33). -/
def State.ldReg (s : State) : BitVec 2 := s.ldState.code

/-- A transition of the decoder's table that emits a bit: the new state, the bit on the output record, and the bit handed
to FS (R131, R132). -/
def ldEmit (c : Config) (l : LdState) (b : Bool) (s : State) : State := callBit c b ((s.setLd l).emitBit b)

/-- CHIP0, the `input=0` column of the table (R131). -/
def opChip0 (c : Config) (s : State) : State :=
  match s.ldState with
  | .lowA => s.setLd .lowA
  | .lowB => ldEmit c .lowA false s
  | .highA => s.setLd .lowB
  | .highB => ldEmit c .lowA true s

/-- CHIP1, the `input=1` column of the table (R132). -/
def opChip1 (c : Config) (s : State) : State :=
  match s.ldState with
  | .lowA => s.setLd .highB
  | .lowB => ldEmit c .highA false s
  | .highA => s.setLd .highA
  | .highB => ldEmit c .highA true s

/-- ER hands LD a chip: CHIP0 or CHIP1 (R84). -/
def callChip (c : Config) (v : Bool) (s : State) : State := if v then opChip1 c s else opChip0 c s

/-- CHIP0 (R131). -/
def execChip0 (s : State) : Host.Outcome State Fault Refusal := .next (opChip0 Config.hsm s)

/-- CHIP1 (R132). -/
def execChip1 (s : State) : Host.Outcome State Fault Refusal := .next (opChip1 Config.hsm s)

end Sys2Proof.Machine
end

