-- ==== Sys2Proof/Machine/Recognizer.lean ====
section
/-! DEFINITION. The Symbol Edge Recognizer: SYM0, SYM1 and SYMX (40_edge_recognizer.md). -/

namespace Sys2Proof.Machine

/-- The run counter after a valid sample of level v: one more, modulo 2^32, or 1 after a level transition (R111). -/
def nextRun (v : Bool) (s : State) : Count := if v = s.erPrev then s.erRun + 1 else 1

/-- The emission test `(er_run mod SPB) == HALF` (R111). -/
def midChip (c : Config) (run : Count) : Bool := run.toNat % c.spb == c.half

/-- `ER_SAMPLE(v)` (R111): the counter is updated first and the test reads the updated counter. -/
def erSample (c : Config) (v : Bool) (s : State) : State :=
  let s' := s.setEr v (nextRun v s)
  if midChip c s'.erRun then callChip c v (s'.emitChip v) else s'

/-- SYM0: `ER_SAMPLE(0)` (R112). -/
def opSym0 (c : Config) (s : State) : State := erSample c false s

/-- SYM1: `ER_SAMPLE(1)` (R113). -/
def opSym1 (c : Config) (s : State) : State := erSample c true s

/-- SYM0 (R112). -/
def execSym0 (s : State) : Host.Outcome State Fault Refusal := .next (opSym0 Config.hsm s)

/-- SYM1 (R113). -/
def execSym1 (s : State) : Host.Outcome State Fault Refusal := .next (opSym1 Config.hsm s)

/-- SYMX (R114): no statement; the sample is dropped. -/
def execSymx (_sym : BitVec 8) (s : State) : Host.Outcome State Fault Refusal := .next s

end Sys2Proof.Machine
end

