-- ==== Sys2Proof/Machine/Reset.lean ====
section
/-! DEFINITION. RESET (70_reset_and_hazards.md). -/

namespace Sys2Proof.Machine

/-- The assignments of R300: every register to its reset value, every entry `EMPTY`. The records still waiting and the
ports of the step are no state of the block and stay (log entry 10). -/
def opReset (s : State) : State :=
  { s with
    erPrev := false
    erRun := 0
    ldState := .lowA
    fsShreg := 0
    cntTotal := 0
    cntInvalid := 0
    dev := [] }

/-- RESET (R300); `sym` is ignored (R82). -/
def execReset (_sym : BitVec 8) (s : State) : Host.Outcome State Fault Refusal := .next (opReset s)

end Sys2Proof.Machine
end

