-- ==== Sys2Proof/Machine/Dispatch.lean ====
section
/-! DEFINITION. One arm per operation, each a call of its meaning. -/

namespace Sys2Proof.Machine

def exec (i : Instr) (s : State) : Host.Outcome State Fault Refusal :=
  match i with
  | .reset sym => Sys2Proof.Machine.execReset sym s
  | .sym0 => Sys2Proof.Machine.execSym0 s
  | .sym1 => Sys2Proof.Machine.execSym1 s
  | .symx sym => Sys2Proof.Machine.execSymx sym s
  | .chip0 => Sys2Proof.Machine.execChip0 s
  | .chip1 => Sys2Proof.Machine.execChip1 s
  | .bit0 => Sys2Proof.Machine.execBit0 s
  | .bit1 => Sys2Proof.Machine.execBit1 s
  | .frameAlt f => Sys2Proof.Machine.execFrameAlt f s
  | .frameDef f => Sys2Proof.Machine.execFrameDef f s
  | .update serial status => Sys2Proof.Machine.execUpdate serial status s

end Sys2Proof.Machine
end

