-- ==== Sys2Proof/Machine/Step.lean ====
section
/-! DEFINITION. One step of the machine (R7): the next word is fetched and decoded, its operation runs every stage it
reaches to completion, and the step's output record is left on the port. -/

namespace Sys2Proof.Machine

/-- One step. With no record and no operation waiting, nothing happens (R274). -/
def step (s : State) : Host.Outcome State Fault Refusal :=
  match fetch s with
  | none => .next (idle s)
  | some (w, s₁) =>
    match decode Config.hsm w with
    | .error _ => .refused (.noOperation w.fmt)
    | .ok i =>
      match exec i s₁ with
      | .next t => .next (finish t)
      | .fault r => .fault r
      | .refused r => .refused r

/-- The state with a table word placed where the next step takes its operation: a control word becomes the next input
record, with the time input of s; a word of an internal format is handed to its stage (log entries 3 and 7). -/
def State.withFetchWord (s : State) (nbits w : Nat) : State :=
  match formatOfBits nbits with
  | some .ctl9 =>
    { s with
      direct := none
      inputs := ⟨w.testBit 8, BitVec.ofNat 8 w, s.now⟩ :: s.inputs }
  | some fmt => { s with direct := some ⟨fmt, BitVec.ofNat 64 w⟩ }
  | none => s

end Sys2Proof.Machine
end

