-- ==== Sys2Proof/Machine/Bench.lean ====
section
/-! DEFINITION. The host's side of the input: the records and the pseudo-instructions of the program notation (R97), and
the chip encoding of a bit sequence (R136). -/

namespace Sys2Proof.Machine

/-- `RST` at time t: `ctl = 0x100` (R97). -/
def rstRecord (t : Time) : InRecord := ⟨true, 0x00, t⟩

/-- `S0` or `S1` at time t: `ctl = 0x000` or `0x001` (R97). -/
def sampleRecord (v : Bool) (t : Time) : InRecord := ⟨false, if v then 0x01 else 0x00, t⟩

/-- `SX v` at time t: `ctl = v`, v in 0x02 to 0xFF (R97). -/
def invalidRecord (v : BitVec 8) (t : Time) : InRecord := ⟨false, v, t⟩

/-- `IDLE n` (R97). -/
def idleRecords (n : Nat) (t : Time) : List InRecord := List.replicate n (sampleRecord false t)

/-- `CHIPS "c1 ... ck"`: `SPB` equal samples for each chip (R97). -/
def chipRecords (c : Config) (chips : List Bool) (t : Time) : List InRecord :=
  chips.flatMap (fun v => List.replicate c.spb (sampleRecord v t))

/-- `enc` of R136: the pair `(bi, not b(i+1))` for each bit but the last, then `(b(n-1), 0)`. -/
def encChips : List Bool → List Bool
  | [] => []
  | [b] => [b, false]
  | b :: b' :: bs => b :: (!b') :: encChips (b' :: bs)

/-- The 64 bits of a frame, the most significant first: `bi = f[63 - i]` (R67, R136). -/
def frameBits (f : Frame) : List Bool := (List.range 64).map (fun i => f.getLsbD (63 - i))

/-- `FRAME f` (R97). -/
def frameRecords (c : Config) (f : Frame) (t : Time) : List InRecord := chipRecords c (encChips (frameBits f)) t

end Sys2Proof.Machine
end

