-- ==== Sys2Proof/Machine/Output.lean ====
section
/-! DEFINITION. The output record as port bits (R89), and the messages the host makes of a notification word (R91). -/

namespace Sys2Proof.Machine

/-- The output ports of a step, with the widths of R89. -/
structure OutPorts where
  chipV : BitVec 1
  chip : BitVec 1
  bitV : BitVec 1
  bit : BitVec 1
  frmCode : BitVec 2
  frmData : BitVec 64
  updV : BitVec 1
  updSerial : Serial
  updStatus : Status
  ntfV : BitVec 1
  ntfWord : BitVec 23
  cntTotal : Count
  cntInvalid : Count
  deriving DecidableEq, Repr

/-- `frm_code` (R89): 0b00 none, 0b01 OK, 0b10 BAD. -/
def FrameOutcome.code : FrameOutcome → BitVec 2
  | .none => 0b00
  | .ok _ => 0b01
  | .bad _ => 0b10

/-- `frm_data` (R89). -/
def FrameOutcome.data : FrameOutcome → Frame
  | .none => 0
  | .ok f => f
  | .bad f => f

/-- The port bits of an output record; a field whose event did not happen has valid bit 0 and data 0 (R89). -/
def OutRecord.ports (o : OutRecord) : OutPorts where
  chipV := BitVec.ofBool o.chip.isSome
  chip := BitVec.ofBool (o.chip.getD false)
  bitV := BitVec.ofBool o.bit.isSome
  bit := BitVec.ofBool (o.bit.getD false)
  frmCode := o.frame.code
  frmData := o.frame.data
  updV := BitVec.ofBool o.upd.isSome
  updSerial := (o.upd.map Prod.fst).getD 0
  updStatus := (o.upd.map Prod.snd).getD 0
  ntfV := BitVec.ofBool o.ntf.isSome
  ntfWord := o.ntf.getD 0
  cntTotal := o.cntTotal
  cntInvalid := o.cntInvalid

/-- One publish call of the host (R91). -/
structure Publish where
  topic : String
  message : String
  deriving DecidableEq, Repr

/-- The alarm-topic message (R91 item 1). -/
def alarmMessage (alarm : Bool) : String := if alarm then "ALARM" else "OK"

/-- The status-topic message (R91 item 2). -/
def statusMessage (tamper batteryLow : Bool) : String :=
  match tamper, batteryLow with
  | false, false => "OK"
  | true, false => "TAMPER"
  | false, true => "LOWBATT"
  | true, true => "TAMPER LOWBATT"

/-- The topic `<base>/<serial>/<leaf>` (R91, R22). -/
def topicOf (serial : Serial) (leaf : String) : String :=
  Config.baseTopic ++ "/" ++ Config.serialText serial ++ "/" ++ leaf

/-- The two publish calls one notification word stands for, in order (R91). -/
def publishCalls (w : BitVec 23) : List Publish :=
  [⟨topicOf (w.extractLsb' 3 20) "alarm", alarmMessage (w.getLsbD 2)⟩,
   ⟨topicOf (w.extractLsb' 3 20) "status", statusMessage (w.getLsbD 1) (w.getLsbD 0)⟩]

end Sys2Proof.Machine
end

