-- ==== Sys2Proof/Safety.lean ====
section
/-! DEFINITION. The terms the statements use: the invariant that holds between steps (R46), the address an operation stores
to, the records a run leaves on the output port (R311), and the polynomial arithmetic of R182. A run is safe here when
every step answers a next state: the block itself has no fault (R260). -/

namespace Sys2Proof.Machine

/-! The invariant (R46). -/

/-- What R46 says of one entry of the device table: an entry not sighted is `EMPTY`, and the flags of a sighted one follow
from its last status byte and its baseline. -/
def EntryInv (c : Config) (e : DevEntry) : Prop :=
  (e.valid = false → e = DevEntry.empty) ∧
  (e.valid = true →
    e.alarmBaseline ≤ alarmBits c e.lastRawState ∧
    e.alarm = decide (e.alarmBaseline < alarmBits c e.lastRawState) ∧
    e.tamper = (e.lastRawState &&& c.tamperMask != 0) ∧
    e.batteryLow = (e.lastRawState &&& c.batteryMask != 0))

/-- The invariant of R46 with the canonical form of the table: it holds between steps after a RESET. That `ld_state` is
one of the four states is its type. -/
structure Inv (c : Config) (s : State) : Prop where
  canonical : s.dev.wf = true
  noPendingMatch : c.syncPattern ≠ 0 → syncOf s.fsShreg ≠ c.syncPattern
  entries : ∀ a : Serial, EntryInv c (s.dev.read a)

/-! The address an operation stores to: the one entry its UPDATE replaces, if it reaches UPDATE. -/

/-- The serial a frame's UPDATE writes (R178, R179). -/
def frameTarget (c : Config) (f : Frame) : Option Serial :=
  if frameValid c f then some (serialOf f) else none

/-- The serial a bit's step writes: its frame's, when the shifted register matches (R153). -/
def bitTarget (c : Config) (b : Bool) (s : State) : Option Serial :=
  if syncOf (shiftIn s.fsShreg b) = c.syncPattern then frameTarget c (shiftIn s.fsShreg b) else none

/-- The serial a chip's step writes: its bit's, when the decoder is in a state that emits (R133). -/
def chipTarget (c : Config) (s : State) : Option Serial :=
  match s.ldState with
  | .lowA => none
  | .lowB => bitTarget c false s
  | .highA => none
  | .highB => bitTarget c true s

/-- The serial a sample's step writes: its chip's, in the middle of a chip period (R111). -/
def sampleTarget (c : Config) (v : Bool) (s : State) : Option Serial :=
  if midChip c (nextRun v s) then chipTarget c s else none

/-- The serial an operation stores to, computed from the state it runs in; RESET clears the whole table instead. -/
def storeTarget (c : Config) (i : Instr) (s : State) : Option Serial :=
  match i with
  | .reset _ => none
  | .sym0 => sampleTarget c false s
  | .sym1 => sampleTarget c true s
  | .symx _ => none
  | .chip0 => chipTarget c s
  | .chip1 => chipTarget c s
  | .bit0 => bitTarget c false s
  | .bit1 => bitTarget c true s
  | .frameAlt f => frameTarget c f
  | .frameDef f => frameTarget c f
  | .update serial _ => some serial

/-- The operation is RESET. -/
def isReset : Instr → Bool
  | .reset _ => true
  | .sym0 => false
  | .sym1 => false
  | .symx _ => false
  | .chip0 => false
  | .chip1 => false
  | .bit0 => false
  | .bit1 => false
  | .frameAlt _ => false
  | .frameDef _ => false
  | .update _ _ => false

/-! Runs and what they show (R311). -/

/-- The output records of n steps, one per step, oldest first; it ends early if a step stops. -/
def observe : Nat → State → List OutRecord
  | 0, _ => []
  | n + 1, s =>
    match step s with
    | .next t => t.out :: observe n t
    | .fault _ => []
    | .refused _ => []

/-- Operations run one after another on one state, each with a fresh output record: the records, and the state at the
end. -/
def feed : List Instr → State → List OutRecord × State
  | [], s => ([], s)
  | i :: is, s =>
    match exec i { s with out := OutRecord.blank } with
    | .next t => (t.out :: (feed is t).1, (feed is t).2)
    | .fault _ => ([], s)
    | .refused _ => ([], s)

/-- The operation a sample of level v selects (R81). -/
def sampleInstr (v : Bool) : Instr := if v then .sym1 else .sym0

/-- The operation a chip of value v selects (R84). -/
def chipInstr (v : Bool) : Instr := if v then .chip1 else .chip0

/-- The operation a bit of value b selects (R85). -/
def bitInstr (b : Bool) : Instr := if b then .bit1 else .bit0

/-- The operation a candidate frame selects (R86). -/
def frameInstr (f : Frame) : Instr := if isAltSof (sofOf f) then .frameAlt f else .frameDef f

/-- The record is a SYMX: no reset and an invalid sample (R81). -/
def InRecord.isInvalid (r : InRecord) : Bool := !r.rst && decide (2 ≤ r.sym.toNat)

/-! Polynomial arithmetic over GF(2) (R182). -/

/-- The product of `p` and the polynomial of the n low bits of q: the exclusive or of `p << k` over the set bits k of q. -/
def gfMul (p : BitVec 64) : Nat → BitVec 64 → BitVec 64
  | 0, _ => 0
  | n + 1, q => (if q.getLsbD n then p <<< n else 0) ^^^ gfMul p n q

/-- Schoolbook long division by a polynomial of degree 16: for j from n - 1 down to 0, `p << j` is subtracted when bit
16 + j of the value is 1. -/
def schoolbook (p : BitVec 64) : Nat → BitVec 64 → BitVec 64
  | 0, v => v
  | j + 1, v => schoolbook p j (if v.getLsbD (16 + j) then v ^^^ (p <<< j) else v)

end Sys2Proof.Machine
end

