-- ==== Sys2Proof/Certificates/Slice0/Obligations.lean ====
section
/-! DEFINITION. The statements for the provers. `exec` and `step` run the instance `Config.hsm` (log entry 1); a statement
over every `Config` says so. Where a statement rests on a decision the spec marks as its own (D<n> of
92_eei_decisions.md), on an inference it marks as derived, or on an entry of the model's log, its docstring says which. -/

open Sys2Proof Sys2Proof.Machine

/-! ## The machine as a whole -/

/-- R260: nothing faults. Every operation of the map completes in every state, and no run of input records stops. -/
def Obligations.EveryOperationAndEveryRunCompletes : Prop :=
  (∀ i s, ∃ t, exec i s = .next t) ∧
  (∀ s r, step s ≠ .fault r) ∧
  (∀ n s, s.direct = none → ∃ t, Host.Core.run Sys2Proof.core n s = .next t ∧ t.direct = none)

/-- A step runs the operation its word decodes to: the control word of the next record, with the record's time on the time
input, or the word handed in `direct`. Around it the step blanks the output record before (R89), and puts the counters on it
and clears the time input after (the model's own: log entries 2 to 5). -/
def Obligations.StepRunsTheDecodedOperation : Prop :=
  (∀ s r rest i, s.direct = none → s.inputs = r :: rest →
    decode Config.hsm ⟨.ctl9, (ctlWord r.rst r.sym).setWidth 64⟩ = .ok i →
    ∃ t, exec i { s with inputs := rest, now := r.now, out := OutRecord.blank } = .next t ∧
      step s = .next { t with now := 0, out := { t.out with cntTotal := t.cntTotal, cntInvalid := t.cntInvalid } }) ∧
  (∀ s w i, s.direct = some w → decode Config.hsm w = .ok i →
    ∃ t, exec i { s with direct := none, out := OutRecord.blank } = .next t ∧
      step s = .next { t with now := 0, out := { t.out with cntTotal := t.cntTotal, cntInvalid := t.cntInvalid } })

/-- R274 (D29): with no record presented and no operation waiting, every register and entry keeps its value. That the event
fields of the output are then at their none values is the model's choice (log entry 5). -/
def Obligations.StepWithoutInputKeepsEveryRegister : Prop :=
  ∀ s, s.direct = none → s.inputs = [] →
    step s = .next { s with
      now := 0
      out := { OutRecord.blank with cntTotal := s.cntTotal, cntInvalid := s.cntInvalid } }

/-- R46 (derived there) with the canonical form of the table (log entry 8): a step from any state that meets the invariant,
on a record or on an operation handed to its stage, gives a state that meets it. -/
def Obligations.StepKeepsTheInvariant : Prop :=
  ∀ s t, Inv Config.hsm s → step s = .next t → Inv Config.hsm t

/-- The state after RESET meets the invariant of R46. -/
def Obligations.ResetMeetsTheInvariant : Prop := Inv Config.hsm State.reset

/-- R30, "written by": outside RESET, only SYM0 and SYM1 write the recognizer's registers themselves, and an operation
writes no register of a stage before its own, in any case of its own and of the operations it calls. The field of the output
record an earlier stage wrote is kept too, and what the host presents is never touched. -/
def Obligations.StagesWriteNoEarlierStage : Prop :=
  ∀ i s t, isReset i = false → exec i s = .next t →
    (t.inputs = s.inputs ∧ t.direct = s.direct ∧ t.now = s.now ∧
      t.out.cntTotal = s.out.cntTotal ∧ t.out.cntInvalid = s.out.cntInvalid) ∧
    (i ≠ .sym0 → i ≠ .sym1 → t.erPrev = s.erPrev ∧ t.erRun = s.erRun ∧ t.out.chip = s.out.chip) ∧
    (i = .bit0 ∨ i = .bit1 ∨ (∃ f, i = .frameAlt f ∨ i = .frameDef f) ∨ (∃ a st, i = .update a st) →
      t.ldState = s.ldState ∧ t.out.bit = s.out.bit) ∧
    ((∃ f, i = .frameAlt f ∨ i = .frameDef f) ∨ (∃ a st, i = .update a st) → t.fsShreg = s.fsShreg) ∧
    ((∃ a st, i = .update a st) →
      t.cntTotal = s.cntTotal ∧ t.cntInvalid = s.cntInvalid ∧ t.out.frame = s.out.frame ∧ t.out.upd = s.out.upd)

/-- The memory frame of every operation but RESET: `storeTarget` computes, from the state the operation runs in, the one
serial whose entry its UPDATE replaces, or none; every other entry of the table reads as before. -/
def Obligations.OnlyTheTargetEntryIsStored : Prop :=
  ∀ i s t, isReset i = false → exec i s = .next t →
    ∀ a : Serial, storeTarget Config.hsm i s ≠ some a → t.dev.read a = s.dev.read a

/-- R266 and R72 (derived there): on a record that is no RESET, each later event of the step needs the earlier one, the
update is the frame's serial and status, and the notification carries the update's serial. A RESET record excludes every
event. -/
def Obligations.EventsOfAStepAreCausal : Prop :=
  ∀ s r rest, s.direct = none → s.inputs = r :: rest →
    ∃ t, step s = .next t ∧
      (r.rst = true → t.out.chip = none ∧ t.out.bit = none ∧ t.out.frame = .none ∧ t.out.upd = none ∧ t.out.ntf = none) ∧
      (t.out.bit ≠ none → t.out.chip ≠ none) ∧
      (t.out.frame ≠ .none → t.out.bit ≠ none) ∧
      (∀ a st, t.out.upd = some (a, st) → ∃ f, t.out.frame = .ok f ∧ a = serialOf f ∧ st = statusOf f) ∧
      (∀ f, t.out.frame = .ok f → t.out.upd = some (serialOf f, statusOf f)) ∧
      (∀ w, t.out.ntf = some w → ∃ a st, t.out.upd = some (a, st) ∧ w.extractLsb' 3 20 = a)

/-- D12: the counters move exactly with the frame outcome of the step, modulo 2^32, and the output record shows them as they
stand at the end of the step. -/
def Obligations.CountersFollowTheFrameOutcome : Prop :=
  ∀ s r rest, s.direct = none → s.inputs = r :: rest → r.rst = false →
    ∃ t, step s = .next t ∧
      (t.out.frame = .none → t.cntTotal = s.cntTotal ∧ t.cntInvalid = s.cntInvalid) ∧
      (∀ f, t.out.frame = .ok f → t.cntTotal = s.cntTotal + 1 ∧ t.cntInvalid = s.cntInvalid) ∧
      (∀ f, t.out.frame = .bad f → t.cntTotal = s.cntTotal + 1 ∧ t.cntInvalid = s.cntInvalid + 1) ∧
      t.out.cntTotal = t.cntTotal ∧ t.out.cntInvalid = t.cntInvalid

/-- Noise robustness, from R153, R176 and R178 (pattern value D9, verdict at zero D11): a step changes the device table only
through an update, and an update only ever comes from a candidate frame that carries the pattern and leaves remainder zero;
it stores that frame's status under that frame's serial at the record's time and leaves every other device alone. -/
def Obligations.DevicesChangeOnlyByValidFrames : Prop :=
  ∀ s r rest, s.direct = none → s.inputs = r :: rest → r.rst = false →
    ∃ t, step s = .next t ∧
      (t.out.upd = none → t.dev = s.dev) ∧
      (∀ a st, t.out.upd = some (a, st) →
        ∃ f, t.out.frame = .ok f ∧ syncOf f = Config.hsm.syncPattern ∧
          remainder (selectPoly Config.hsm (sofOf f)) f = 0 ∧ a = serialOf f ∧ st = statusOf f ∧
          (t.dev.read a).valid = true ∧ (t.dev.read a).lastRawState = st ∧ (t.dev.read a).lastUpdateTime = r.now ∧
          ∀ b, b ≠ a → t.dev.read b = s.dev.read b)

/-- R83 (D3): a step that hands no update to the tracker does not depend on the record's time; one that does depends on it
only in the updated device's entry and in the notification. -/
def Obligations.TimeIsSeenOnlyByUpdates : Prop :=
  ∀ s r rest now', s.direct = none → s.inputs = r :: rest →
    ∃ t t', step s = .next t ∧ step { s with inputs := { r with now := now' } :: rest } = .next t' ∧
      (t.out.upd = none → t' = t) ∧
      { t' with dev := t.dev, out := { t'.out with ntf := t.out.ntf } } = t ∧
      (∀ a st, t.out.upd = some (a, st) → ∀ b, b ≠ a → t'.dev.read b = t.dev.read b)

/-- The canonical form of the device table (log entry 8) is one form: two tables in it that give the same entry at each of
the 2^20 serials (R37, R60) are the same list. -/
def Obligations.DeviceTablesWithEqualEntriesAreEqual : Prop :=
  ∀ m m' : Memory, m.wf = true → m'.wf = true → (∀ a : Serial, m.read a = m'.read a) → m = m'

/-! ## RESET -/

/-- R47: the value of every piece of state after RESET. The values are the document's for `ld_state` and the baseline, and
decisions D5, D10, D12 and D17 of the spec for the others. -/
def Obligations.ResetValuesOfEveryRegister : Prop :=
  State.reset.erPrev = false ∧ State.reset.erRun = 0 ∧ State.reset.ldState = .lowA ∧ State.reset.fsShreg = 0 ∧
  State.reset.cntTotal = 0 ∧ State.reset.cntInvalid = 0 ∧
  ∀ a, State.reset.dev.read a = ⟨false, 0x00, 0xFF, false, false, false, 0, 0⟩

/-- R300 (D24): RESET, whatever `sym` holds, writes the reset values and nothing else. What it leaves of the model's own
fields is log entry 10. -/
def Obligations.ResetWritesTheResetValues : Prop :=
  ∀ sym s, ∃ t, exec (.reset sym) s = .next t ∧
    t.erPrev = false ∧ t.erRun = 0 ∧ t.ldState = .lowA ∧ t.fsShreg = 0 ∧ t.cntTotal = 0 ∧ t.cntInvalid = 0 ∧
    (∀ a, t.dev.read a = ⟨false, 0x00, 0xFF, false, false, false, 0, 0⟩) ∧
    t.inputs = s.inputs ∧ t.direct = s.direct ∧ t.now = s.now ∧ t.out = s.out

/-- R82 and R300 (D24): a record with `rst = 1` gives the reset state from every state, whatever `sym` and `now` hold; the
records behind it are still to come. -/
def Obligations.ResetRecordGivesTheResetState : Prop :=
  ∀ s sym now rest, s.direct = none → s.inputs = ⟨true, sym, now⟩ :: rest →
    step s = .next { State.reset with inputs := rest }

/-! ## The operation map -/

/-- Decode and encode agree on every well-formed operation, under every parameter value. -/
def Obligations.DecodeOfEncodeIsTheOperation : Prop :=
  ∀ (c : Config) (i : Instr), i.wf c = true → decode c (encode i) = .ok i

/-- The other direction: a word that decodes is the word of the operation it decodes to, and that operation is well
formed. So each word has one meaning. -/
def Obligations.EncodeOfDecodeIsTheWord : Prop :=
  ∀ (c : Config) (w : OpWord) (i : Instr), decode c w = .ok i → encode i = w ∧ i.wf c = true

/-- R93: no control word traps or is reserved; the 254 samples outside {0, 1} are SYMX, which changes nothing; `frm_code`
0b11 is never produced. -/
def Obligations.NoControlWordIsReserved : Prop :=
  (∀ (c : Config) (sym : BitVec 8), decode c ⟨.ctl9, (ctlWord true sym).setWidth 64⟩ = .ok (.reset sym)) ∧
  (∀ c : Config, decode c ⟨.ctl9, (ctlWord false 0x00).setWidth 64⟩ = .ok .sym0) ∧
  (∀ c : Config, decode c ⟨.ctl9, (ctlWord false 0x01).setWidth 64⟩ = .ok .sym1) ∧
  (∀ (c : Config) (sym : BitVec 8), sym ≠ 0x00 → sym ≠ 0x01 →
    decode c ⟨.ctl9, (ctlWord false sym).setWidth 64⟩ = .ok (.symx sym)) ∧
  (∀ sym s, exec (.symx sym) s = .next s) ∧
  (∀ o : OutRecord, o.ports.frmCode ≠ 0b11)

/-- Words written out bit by bit from the "encoding" column of opcode_table.json, at least one of each format. -/
def Obligations.TableWordsDecodeToTheirRows : Prop :=
  decode Config.hsm ⟨.ctl9, 0b101010101⟩ = .ok (.reset 0b01010101) ∧
  decode Config.hsm ⟨.ctl9, 0b000000000⟩ = .ok .sym0 ∧
  decode Config.hsm ⟨.ctl9, 0b000000001⟩ = .ok .sym1 ∧
  decode Config.hsm ⟨.ctl9, 0b010000010⟩ = .ok (.symx 0b10000010) ∧
  decode Config.hsm ⟨.chip1, 0b0⟩ = .ok .chip0 ∧
  decode Config.hsm ⟨.chip1, 0b1⟩ = .ok .chip1 ∧
  decode Config.hsm ⟨.bit1, 0b0⟩ = .ok .bit0 ∧
  decode Config.hsm ⟨.bit1, 0b1⟩ = .ok .bit1 ∧
  decode Config.hsm ⟨.upd28, 0b0000101010111100110101000000⟩ = .ok (.update 0b00001010101111001101 0b01000000) ∧
  decode Config.hsm ⟨.frame64, 0b1111111111111110101000001010101111001101010000000101100001010000⟩
    = .ok (.frameAlt 0xFFFEA0ABCD405850) ∧
  decode Config.hsm ⟨.frame64, 0b1111111111111110100000010010001101000101000000000000100010000101⟩
    = .ok (.frameDef 0xFFFE812345000885)

/-- R92 gives no row to a 64-bit word without the pattern; handed straight to the validator's place it is refused by name
(log entry 6). No record of the host can do this (EveryOperationAndEveryRunCompletes). -/
def Obligations.WordWithoutTheSyncPatternIsRefused : Prop :=
  ∀ s f, s.direct = some ⟨.frame64, f⟩ → syncOf f ≠ Config.hsm.syncPattern →
    step s = .refused (.noOperation .frame64)

/-! ## Symbol Edge Recognizer -/

/-- R112 with R111 (order D8, counter width D6, SPB D7): SYM0 counts the run of zeros, modulo 2^32; in the middle of a
period it shows chip 0 and its result is that of CHIP0. -/
def Obligations.SampleZeroCountsAndEmits : Prop :=
  ∀ s, (let run := if s.erPrev = false then s.erRun + 1 else 1
    (run.toNat % 8 ≠ 4 → exec .sym0 s = .next { s with erPrev := false, erRun := run }) ∧
    (run.toNat % 8 = 4 → ∃ t, exec .sym0 s = .next t ∧
      exec .chip0 { s with erPrev := false, erRun := run, out := { s.out with chip := some false } } = .next t ∧
      t.erPrev = false ∧ t.erRun = run ∧ t.out.chip = some false))

/-- R113 with R111 (order D8, counter width D6, SPB D7): SYM1 counts the run of ones, modulo 2^32; in the middle of a
period it shows chip 1 and its result is that of CHIP1. -/
def Obligations.SampleOneCountsAndEmits : Prop :=
  ∀ s, (let run := if s.erPrev = true then s.erRun + 1 else 1
    (run.toNat % 8 ≠ 4 → exec .sym1 s = .next { s with erPrev := true, erRun := run }) ∧
    (run.toNat % 8 = 4 → ∃ t, exec .sym1 s = .next t ∧
      exec .chip1 { s with erPrev := true, erRun := run, out := { s.out with chip := some true } } = .next t ∧
      t.erPrev = true ∧ t.erRun = run ∧ t.out.chip = some true))

/-- R114: SYMX, any sample from 0x02 to 0xFF, changes no state; its step shows nothing but the unchanged counters; any
number of them between two samples is invisible; and a run they interrupt is one run (the rule's example, which the spec
derives from R111). The samples' encoding is decision D23; that the time input is 0 after the step is the model's choice
(log entry 4). -/
def Obligations.InvalidSampleIsDropped : Prop :=
  ∀ sym : BitVec 8, 2 ≤ sym.toNat →
    decode Config.hsm ⟨.ctl9, (ctlWord false sym).setWidth 64⟩ = .ok (.symx sym) ∧
    (∀ s, exec (.symx sym) s = .next s) ∧
    (∀ s now rest, s.direct = none → s.inputs = ⟨false, sym, now⟩ :: rest →
      step s = .next { s with
        inputs := rest
        now := 0
        out := { OutRecord.blank with cntTotal := s.cntTotal, cntInvalid := s.cntInvalid } }) ∧
    (∀ n s, { (feed (List.replicate n (.symx sym)) s).2 with out := s.out } = s) ∧
    (∀ s, s.erPrev = false → s.erRun = 0 →
      (feed [.sym1, .sym1, .symx sym, .sym1, .sym1] s).1.map (·.chip) = [none, none, none, none, some true] ∧
      (feed [.sym1, .sym1, .symx sym, .sym1, .sym1] s).2.erRun = 4 ∧
      (feed [.sym1, .sym1, .symx sym, .sym1, .sym1] s).2
        = { (feed [.sym1, .sym1, .sym1, .sym1] s).2 with out := (feed [.sym1, .sym1, .symx sym, .sym1, .sym1] s).2.out })

/-- R114 and R263, over whole streams: taking every SYMX record out of a stream changes no register at the end and no output
record of the steps that remain. -/
def Obligations.InvalidSamplesAreInvisibleInAStream : Prop :=
  ∀ s : State, s.direct = none →
    (let kept := s.inputs.filter (fun r => !r.isInvalid)
    ∃ t t', Host.Core.run Sys2Proof.core s.inputs.length s = .next t ∧
      Host.Core.run Sys2Proof.core kept.length { s with inputs := kept } = .next t' ∧
      t'.erPrev = t.erPrev ∧ t'.erRun = t.erRun ∧ t'.ldState = t.ldState ∧ t'.fsShreg = t.fsShreg ∧
      t'.cntTotal = t.cntTotal ∧ t'.cntInvalid = t.cntInvalid ∧ t'.dev = t.dev ∧
      observe kept.length { s with inputs := kept }
        = ((s.inputs.zip (observe s.inputs.length s)).filter (fun p => !p.1.isInvalid)).map Prod.snd)

/-- R115 (derived there): in a run of n equal samples that starts with a level transition, or from a cleared counter, the
chip is emitted exactly at the samples 4, 12, 20, ..., which are floor((n + 4) / 8) many. -/
def Obligations.RunEmitsOneChipPerPeriod : Prop :=
  ∀ (n : Nat) (v : Bool) (s : State), (s.erPrev ≠ v ∨ s.erRun = 0) →
    (feed (List.replicate n (sampleInstr v)) s).1.map (·.chip)
      = (List.range n).map (fun k => if (k + 1) % 8 = 4 then some v else none) ∧
    ((feed (List.replicate n (sampleInstr v)) s).1.filter (fun o => o.chip.isSome)).length = (n + 4) / 8

/-- R117 (derived there): two states that differ only in the run counter, by a multiple of 8, give the same output records
for ever. -/
def Obligations.OnlyTheRunCountModuloEightIsVisible : Prop :=
  ∀ (n : Nat) (s : State) (x : Count), x.toNat % 8 = s.erRun.toNat % 8 → observe n { s with erRun := x } = observe n s

/-! ## Line Decoder -/

/-- R131: CHIP0, the `input=0` column of the decoder's table, with the bit it emits and hands to FS. -/
def Obligations.ChipZeroFollowsTheTable : Prop :=
  decode Config.hsm ⟨.chip1, 0⟩ = .ok .chip0 ∧
  ∀ s,
    (s.ldState = .lowA → exec .chip0 s = .next s) ∧
    (s.ldState = .lowB → ∃ t, exec .chip0 s = .next t ∧
      exec .bit0 { s with ldState := .lowA, out := { s.out with bit := some false } } = .next t ∧
      t.ldState = .lowA ∧ t.out.bit = some false) ∧
    (s.ldState = .highA → exec .chip0 s = .next { s with ldState := .lowB }) ∧
    (s.ldState = .highB → ∃ t, exec .chip0 s = .next t ∧
      exec .bit1 { s with ldState := .lowA, out := { s.out with bit := some true } } = .next t ∧
      t.ldState = .lowA ∧ t.out.bit = some true)

/-- R132: CHIP1, the `input=1` column of the decoder's table, with the bit it emits and hands to FS. -/
def Obligations.ChipOneFollowsTheTable : Prop :=
  decode Config.hsm ⟨.chip1, 1⟩ = .ok .chip1 ∧
  ∀ s,
    (s.ldState = .lowA → exec .chip1 s = .next { s with ldState := .highB }) ∧
    (s.ldState = .lowB → ∃ t, exec .chip1 s = .next t ∧
      exec .bit0 { s with ldState := .highA, out := { s.out with bit := some false } } = .next t ∧
      t.ldState = .highA ∧ t.out.bit = some false) ∧
    (s.ldState = .highA → exec .chip1 s = .next s) ∧
    (s.ldState = .highB → ∃ t, exec .chip1 s = .next t ∧
      exec .bit1 { s with ldState := .highA, out := { s.out with bit := some true } } = .next t ∧
      t.ldState = .highA ∧ t.out.bit = some true)

/-- R133 (derived there): a bit is emitted exactly in `LowB` (0) and `HighB` (1), whatever the chip, and the new state's
level is the chip's value. -/
def Obligations.BitIsEmittedExactlyInTheBStates : Prop :=
  ∀ (v : Bool) (s : State), s.out.bit = none →
    ∃ t, exec (chipInstr v) s = .next t ∧
      (s.ldState = .lowB → t.out.bit = some false) ∧
      (s.ldState = .highB → t.out.bit = some true) ∧
      (s.ldState = .lowA ∨ s.ldState = .highA → t.out.bit = none) ∧
      ((t.ldState = .highA ∨ t.ldState = .highB) ↔ v = true)

/-- R134 (derived there): two consecutive chips never both emit a bit. -/
def Obligations.ConsecutiveChipsNeverBothEmit : Prop :=
  ∀ (v w : Bool) (s t u : State), s.out.bit = none →
    exec (chipInstr v) s = .next t → exec (chipInstr w) { t with out := OutRecord.blank } = .next u →
    t.out.bit = none ∨ u.out.bit = none

/-- R136 (derived there): the chip encoding of a bit sequence that begins with 1, fed to LD in `LowA`, makes LD emit exactly
those bits in order, one on the second chip of each pair, and ends in `LowA`. -/
def Obligations.EncodedBitsAreDecodedInOrder : Prop :=
  ∀ (bs : List Bool) (s : State), bs.head? = some true → s.ldState = .lowA →
    (feed ((encChips bs).map chipInstr) s).1.map (·.bit) = bs.flatMap (fun b => [none, some b]) ∧
    (feed ((encChips bs).map chipInstr) s).2.ldState = .lowA

/-! ## Frame Synchronizer -/

/-- R153, for BIT0 and BIT1: shift left by one with the new bit at position 0; on an exact match of the top 16 bits hand the
whole register value on as one candidate frame and clear the register; else keep the shifted value. That clearing before or
after the call is the same is derived in R153, and that every candidate counts in `cnt_total` is decision D12 (R178,
R179). -/
def Obligations.BitShiftsInAndMatches : Prop :=
  ∀ (b : Bool) (s : State), (let f : BitVec 64 := (s.fsShreg <<< 1) ||| (if b then 1 else 0)
    (f.extractLsb' 48 16 ≠ Config.hsm.syncPattern → exec (bitInstr b) s = .next { s with fsShreg := f }) ∧
    (f.extractLsb' 48 16 = Config.hsm.syncPattern → ∃ t, exec (bitInstr b) s = .next t ∧
      exec (frameInstr f) { s with fsShreg := 0 } = .next t ∧
      t.fsShreg = 0 ∧ (t.out.frame = .ok f ∨ t.out.frame = .bad f) ∧ t.cntTotal = s.cntTotal + 1 ∧
      ∃ u, exec (frameInstr f) { s with fsShreg := f } = .next u ∧ t = { u with fsShreg := 0 }))

/-- The examples of R151 and R152 (the pattern value is D9): a bit that matches nothing, and one that completes a match. -/
def Obligations.BitExamplesOfTheSpec : Prop :=
  (∀ s, s.fsShreg = 0x0000000000000003 → exec .bit0 s = .next { s with fsShreg := 0x0000000000000006 }) ∧
  (∀ s, s.fsShreg = 0x7FFF40ABCDEF0123 → ∃ t, exec .bit1 s = .next t ∧
    t.fsShreg = 0 ∧ t.out.frame = .bad 0xFFFE81579BDE0247)

/-- R154 (derived there; the pattern value is D9): from a cleared register no candidate is handed on before 64 more bits,
and 64 bits that begin with the pattern are handed on as one frame, exactly on the 64th. -/
def Obligations.CandidatesAreSixtyFourBitsApart : Prop :=
  (∀ (bs : List Bool) (s : State), bs.length < 64 → s.fsShreg = 0 →
    ∀ o ∈ (feed (bs.map bitInstr) s).1, o.frame = .none) ∧
  (∀ (f : Frame) (s : State), syncOf f = Config.hsm.syncPattern → s.fsShreg = 0 →
    (feed ((frameBits f).map bitInstr) s).1.map (·.frame)
      = List.replicate 63 .none ++ [if remainder (selectPoly Config.hsm (sofOf f)) f = 0 then .ok f else .bad f] ∧
    (feed ((frameBits f).map bitInstr) s).2.fsShreg = 0)

/-! ## Frame Validator -/

/-- R86: the fields tile the frame, bit 0 least significant, and the frame's `sof` selects the operation. -/
def Obligations.FrameFieldsTileTheFrame : Prop :=
  ∀ f : Frame,
    f = syncOf f ++ (sofOf f ++ (serialOf f ++ (statusOf f ++ checkOf f))) ∧
    (∀ c : Config, syncOf f = c.syncPattern → (sofOf f = 0x2 ∨ sofOf f = 0xA) →
      decode c ⟨.frame64, f⟩ = .ok (.frameAlt f)) ∧
    (∀ c : Config, syncOf f = c.syncPattern → sofOf f ≠ 0x2 → sofOf f ≠ 0xA →
      decode c ⟨.frame64, f⟩ = .ok (.frameDef f))

/-- R172: `sof` 0x2 and 0xA select 0x18050, the fourteen other values 0x18005. -/
def Obligations.StartNibbleSelectsThePolynomial : Prop :=
  ∀ sof : BitVec 4, selectPoly Config.hsm sof = if sof = 0x2 ∨ sof = 0xA then 0x18050 else 0x18005

/-- R178 with R180 and R181 (the total counter is D12): a frame of remainder zero is counted, shown as OK, handed on as an
update, and its result is that of UPDATE. -/
def Obligations.ValidFrameUpdatesItsDevice : Prop :=
  ∀ (f : Frame) (i : Instr) (s : State), i = .frameAlt f ∨ i = .frameDef f →
    remainder (selectPoly Config.hsm (sofOf f)) f = 0 →
    ∃ t, exec i s = .next t ∧
      exec (.update (serialOf f) (statusOf f))
        { s with
          cntTotal := s.cntTotal + 1
          out := { s.out with frame := .ok f, upd := some (serialOf f, statusOf f) } } = .next t ∧
      t.cntTotal = s.cntTotal + 1 ∧ t.cntInvalid = s.cntInvalid ∧ t.out.frame = .ok f ∧
      t.out.upd = some (serialOf f, statusOf f)

/-- R179: any other frame increments both counters, is shown as BAD, and nothing else happens. -/
def Obligations.InvalidFrameIsCountedAndDiscarded : Prop :=
  ∀ (f : Frame) (i : Instr) (s : State), i = .frameAlt f ∨ i = .frameDef f →
    remainder (selectPoly Config.hsm (sofOf f)) f ≠ 0 →
    exec i s = .next { s with
      cntTotal := s.cntTotal + 1
      cntInvalid := s.cntInvalid + 1
      out := { s.out with frame := .bad f } }

/-- R185 (derived there): for every 17-bit polynomial the loop runs exactly 32 times, so the model's bound on it (log entry
13) never cuts it short. -/
def Obligations.DivisionLoopRunsThirtyTwoTimes : Prop :=
  ∀ p : Poly, p.getLsbD 16 = true →
    divCount (polyWord p) divFuel (firstDivisor p) = 32 ∧
    ∀ (n : Nat) (sum : BitVec 64), 32 ≤ n →
      divLoop (polyWord p) n sum (firstDivisor p) = divLoop (polyWord p) 32 sum (firstDivisor p)

/-- R182, first part (derived there): the loop with its highest-set-bit test is schoolbook long division, and leaves a
remainder below 2^16. -/
def Obligations.DivisionIsSchoolbookDivision : Prop :=
  ∀ (p : Poly) (f : Frame), p.getLsbD 16 = true →
    remainder p f = schoolbook (polyWord p) 32 (dividend f) ∧ (remainder p f).toNat < 2 ^ 16

/-- R182, second part (derived there): a frame is valid exactly when the polynomial its `sof` selects divides `f[47:0]` over
GF(2). -/
def Obligations.ValidExactlyWhenThePolynomialDivides : Prop :=
  ∀ (c : Config) (f : Frame), c.wf = true →
    (frameValid c f = true ↔
      ∃ q : BitVec 64, dividend f = gfMul (polyWord (selectPoly c (sofOf f))) 32 q)

/-- R182, third part (derived there): a frame is valid exactly when its check field is `(f[47:16] * x^16) mod P`. -/
def Obligations.ValidExactlyWhenTheCheckIsTheCrc : Prop :=
  ∀ (c : Config) (f : Frame), c.wf = true →
    (frameValid c f = true ↔
      (checkOf f).setWidth 64
        = schoolbook (polyWord (selectPoly c (sofOf f))) 32 (f &&& 0x0000FFFFFFFF0000))

/-- R183 (derived there): flipping one of the bits 47:0 of a valid frame makes it invalid, if the flip does not change which
polynomial is selected. -/
def Obligations.SingleBitErrorIsDetected : Prop :=
  ∀ (f : Frame) (k : Nat), k < 48 → frameValid Config.hsm f = true →
    isAltSof (sofOf (f ^^^ (1 <<< k))) = isAltSof (sofOf f) →
    frameValid Config.hsm (f ^^^ (1 <<< k)) = false

/-- R184 (derived there): a FRAME_ALT frame whose four lowest check bits are not all zero is invalid. -/
def Obligations.AlternateFrameNeedsAZeroLowNibble : Prop :=
  ∀ f : Frame, isAltSof (sofOf f) = true → f.extractLsb' 0 4 ≠ 0 → frameValid Config.hsm f = false

/-- R186 (derived there): the all-zero payload is valid under every pattern and default polynomial, and FRAME_DEF hands
update (0x00000, 0x00) on. -/
def Obligations.ZeroPayloadIsValid : Prop :=
  (∀ c : Config, frameValid c (c.syncPattern ++ (0 : BitVec 48)) = true) ∧
  ∀ s, ∃ t, exec (.frameDef 0xFFFE000000000000) s = .next t ∧
    t.out.frame = .ok 0xFFFE000000000000 ∧ t.out.upd = some (0x00000, 0x00)

/-- Rows of the vector table L2.4 of 95_test_vectors.md, with their remainders, and R187's. -/
def Obligations.RemaindersOfTheSpecVectors : Prop :=
  remainder 0x18005 0xFFFE812345000885 = 0x0000 ∧
  remainder 0x18050 0xFFFEA0ABCD405850 = 0x0000 ∧
  remainder 0x18050 0xFFFEA0ABCD40A7A3 = 0xFFF3 ∧
  remainder 0x18005 0xFFFE812345802EB0 = 0xA536 ∧
  remainder 0x18050 0xFFFE200000000000 = 0x7030 ∧
  remainder 0x18005 0xFFFE800000000000 = 0x803F

/-! ## Device State Tracker -/

/-- R203 and R204: UPDATE lowers the baseline to the alarm bits when these are below it, as unsigned numbers, and never
raises it; the alarm is recomputed as strictly above the baseline after that. A device not yet sighted starts from the
baseline 0xFF. -/
def Obligations.UpdateLowersTheBaselineAndComparesTheAlarm : Prop :=
  ∀ (a : Serial) (st : Status) (s : State),
    (let old : BitVec 8 := if (s.dev.read a).valid then (s.dev.read a).alarmBaseline else 0xFF
    let ab : BitVec 8 := st &&& Config.hsm.alarmMask
    ∃ t, exec (.update a st) s = .next t ∧
      (ab.toNat < old.toNat → (t.dev.read a).alarmBaseline = ab) ∧
      (¬ ab.toNat < old.toNat → (t.dev.read a).alarmBaseline = old) ∧
      (t.dev.read a).alarmBaseline.toNat ≤ old.toNat ∧
      ((t.dev.read a).alarm = true ↔ (t.dev.read a).alarmBaseline.toNat < ab.toNat))

/-- R209: on every UPDATE, notifying or not, the entry is stored with the status byte and the time of this update, whole,
and no other entry changes. -/
def Obligations.UpdatePersistsStatusAndTime : Prop :=
  ∀ (a : Serial) (st : Status) (s : State),
    ∃ t, exec (.update a st) s = .next t ∧
      (t.dev.read a).lastRawState = st ∧ (t.dev.read a).lastUpdateTime = s.now ∧
      ∀ b, b ≠ a → t.dev.read b = s.dev.read b

/-- R200, R201, R205 and R206 (decisions D14, D17, D18): the other fields of the stored entry, and everything UPDATE leaves
alone. -/
def Obligations.UpdateSetsFlagsAndAlarmTime : Prop :=
  ∀ (a : Serial) (st : Status) (s : State),
    (let wasAlarm := (s.dev.read a).valid && (s.dev.read a).alarm
    let oldTime : BitVec 64 := if (s.dev.read a).valid then (s.dev.read a).lastAlarmTime else 0
    ∃ t, exec (.update a st) s = .next t ∧
      (t.dev.read a).valid = true ∧
      ((t.dev.read a).tamper = true ↔ st &&& 0x40 ≠ 0) ∧
      ((t.dev.read a).batteryLow = true ↔ st &&& 0x08 ≠ 0) ∧
      (t.dev.read a).lastAlarmTime
        = (if (t.dev.read a).alarm = true ∧ wasAlarm = false then s.now else oldTime) ∧
      { t with dev := s.dev, out := { t.out with ntf := s.out.ntf } } = s)

/-- R207 and R208 (decisions D15, D21, D22; word D25): UPDATE notifies exactly when the device is new, the status byte
differs, or more than 60 seconds, counted on unbounded integers, have passed since its last update; the word carries the
flags after this update. -/
def Obligations.UpdateNotifiesOnChangeOrHeartbeat : Prop :=
  ∀ (a : Serial) (st : Status) (s : State), s.out.ntf = none →
    ∃ t, exec (.update a st) s = .next t ∧
      (((s.dev.read a).valid = false ∨ st ≠ (s.dev.read a).lastRawState ∨
          (s.now.toNat : Int) - ((s.dev.read a).lastUpdateTime.toNat : Int) > 60) →
        t.out.ntf = some (ntfWord a (t.dev.read a).alarm (t.dev.read a).tamper (t.dev.read a).batteryLow)) ∧
      (¬ ((s.dev.read a).valid = false ∨ st ≠ (s.dev.read a).lastRawState ∨
          (s.now.toNat : Int) - ((s.dev.read a).lastUpdateTime.toNat : Int) > 60) →
        t.out.ntf = none)

/-- R211 (derived there): the first UPDATE of a device never raises its alarm, takes its alarm bits as the baseline, and
always notifies, with the alarm bit 0. -/
def Obligations.FirstSightingNotifiesWithoutAlarm : Prop :=
  ∀ (a : Serial) (st : Status) (s : State), (s.dev.read a).valid = false →
    ∃ t, exec (.update a st) s = .next t ∧
      (t.dev.read a).alarm = false ∧ (t.dev.read a).alarmBaseline = st &&& Config.hsm.alarmMask ∧
      ∃ w, t.out.ntf = some w ∧ w.extractLsb' 3 20 = a ∧ w.getLsbD 2 = false

/-- R212 (derived there; HEARTBEAT_SEC is D15): an UPDATE repeated with the same status notifies exactly when more than 60
seconds have passed since the last UPDATE of that device, whatever happened to other devices in between. -/
def Obligations.RepeatedUpdateIsThrottled : Prop :=
  ∀ (a : Serial) (st : Status) (s t u : State), exec (.update a st) s = .next t →
    u.dev.read a = t.dev.read a → u.out.ntf = none →
    ∃ w, exec (.update a st) u = .next w ∧
      (w.out.ntf.isSome = true ↔ (u.now.toNat : Int) - (s.now.toNat : Int) > 60)

/-- The example of R213 (derived there; ALARM_MASK is D13), for every serial: the alarm compares numbers, not loops. First 0x20, then 0x10 lowers the
baseline without an alarm though its loop is new; then 0x20 raises the alarm. -/
def Obligations.HysteresisIsNumeric : Prop :=
  ∀ (a : Serial) (s : State), (s.dev.read a).valid = false →
    (let t₂ := (feed [.update a 0x20, .update a 0x10] s).2
    let t₃ := (feed [.update a 0x20, .update a 0x10, .update a 0x20] s).2
    (t₂.dev.read a).alarmBaseline = 0x10 ∧ (t₂.dev.read a).alarm = false ∧
    (t₃.dev.read a).alarmBaseline = 0x10 ∧ (t₃.dev.read a).alarm = true)

/-- R46, last clause (derived there): on a record that is no RESET, no device's baseline rises. The invariant rules out an
unsighted entry with a stored baseline, which no run reaches. -/
def Obligations.BaselineNeverRisesExceptByReset : Prop :=
  ∀ s r rest, Inv Config.hsm s → s.direct = none → s.inputs = r :: rest → r.rst = false →
    ∃ t, step s = .next t ∧ ∀ a, (t.dev.read a).alarmBaseline ≤ (s.dev.read a).alarmBaseline

/-- R215: no operation but RESET makes a known device unknown; UPDATE makes its device known and evicts no other; RESET
forgets every device. -/
def Obligations.KnownDevicesLiveUntilReset : Prop :=
  (∀ i s t, isReset i = false → exec i s = .next t → ∀ a, (s.dev.read a).valid = true → (t.dev.read a).valid = true) ∧
  (∀ (a : Serial) (st : Status) (s : State), ∃ t, exec (.update a st) s = .next t ∧ (t.dev.read a).valid = true ∧
    ∀ b, b ≠ a → t.dev.read b = s.dev.read b) ∧
  (∀ sym s, ∃ t, exec (.reset sym) s = .next t ∧ ∀ a, (t.dev.read a).valid = false)

/-! ## Output -/

/-- R90 (D25): the layout of the notification word. -/
def Obligations.NotificationWordLayout : Prop :=
  ∀ (a : Serial) (alarm tamper low : Bool),
    (ntfWord a alarm tamper low).extractLsb' 3 20 = a ∧ (ntfWord a alarm tamper low).getLsbD 2 = alarm ∧
    (ntfWord a alarm tamper low).getLsbD 1 = tamper ∧ (ntfWord a alarm tamper low).getLsbD 0 = low

/-- R91 (order D20; the base topic and the serial's text are OPEN, log entry 11): the two publish calls of a notification
word. -/
def Obligations.NotificationMakesTwoPublishCalls : Prop :=
  ∀ (a : Serial) (alarm tamper low : Bool),
    publishCalls (ntfWord a alarm tamper low) =
      [⟨Config.baseTopic ++ "/" ++ Config.serialText a ++ "/" ++ "alarm", if alarm then "ALARM" else "OK"⟩,
       ⟨Config.baseTopic ++ "/" ++ Config.serialText a ++ "/" ++ "status",
        if tamper then (if low then "TAMPER LOWBATT" else "TAMPER") else (if low then "LOWBATT" else "OK")⟩]

/-- R89 (D25): a field whose event did not happen has valid bit 0 and data 0, and an event's field has valid bit 1 and its
value; the frame outcome is coded 0b00, 0b01, 0b10. -/
def Obligations.OutputPortsHaveNoneValues : Prop :=
  ∀ o : OutRecord,
    (o.chip = none → o.ports.chipV = 0 ∧ o.ports.chip = 0) ∧
    (∀ v, o.chip = some v → o.ports.chipV = 1 ∧ o.ports.chip = BitVec.ofBool v) ∧
    (o.bit = none → o.ports.bitV = 0 ∧ o.ports.bit = 0) ∧
    (∀ b, o.bit = some b → o.ports.bitV = 1 ∧ o.ports.bit = BitVec.ofBool b) ∧
    (o.frame = .none → o.ports.frmCode = 0b00 ∧ o.ports.frmData = 0) ∧
    (∀ f, o.frame = .ok f → o.ports.frmCode = 0b01 ∧ o.ports.frmData = f) ∧
    (∀ f, o.frame = .bad f → o.ports.frmCode = 0b10 ∧ o.ports.frmData = f) ∧
    (o.upd = none → o.ports.updV = 0 ∧ o.ports.updSerial = 0 ∧ o.ports.updStatus = 0) ∧
    (∀ a st, o.upd = some (a, st) → o.ports.updV = 1 ∧ o.ports.updSerial = a ∧ o.ports.updStatus = st) ∧
    (o.ntf = none → o.ports.ntfV = 0 ∧ o.ports.ntfWord = 0) ∧
    (∀ w, o.ntf = some w → o.ports.ntfV = 1 ∧ o.ports.ntfWord = w) ∧
    o.ports.cntTotal = o.cntTotal ∧ o.ports.cntInvalid = o.cntInvalid

/-! ## The pipeline from samples to devices -/

/-- R98 (derived there; the pattern value is D9, SPB D7): the 1,024 samples of `FRAME f`, from a state with `ld_state = LowA`,
`fs_shreg = 0` and the recognizer at an edge or at a multiple of 8, hand FV exactly one candidate frame, equal to f, on the
1,020th sample (the 4th of the last chip), apply its update at the time of the samples if it is valid, and leave the same
conditions for the next frame. -/
def Obligations.FrameStreamIsDecoded : Prop :=
  ∀ (f : Frame) (now : Time) (rest : List InRecord) (s : State),
    syncOf f = Config.hsm.syncPattern → s.direct = none → s.ldState = .lowA → s.fsShreg = 0 →
    (s.erPrev = false ∨ s.erRun.toNat % 8 = 0) → s.inputs = frameRecords Config.hsm f now ++ rest →
    (observe 1024 s).map (·.frame)
      = List.replicate 1019 .none ++ [if frameValid Config.hsm f then .ok f else .bad f] ++ List.replicate 4 .none ∧
    ∃ t, Host.Core.run Sys2Proof.core 1024 s = .next t ∧
      t.inputs = rest ∧ t.direct = none ∧ t.ldState = .lowA ∧ t.fsShreg = 0 ∧ t.erPrev = false ∧
      t.erRun.toNat % 8 = 0 ∧ t.cntTotal = s.cntTotal + 1 ∧
      (frameValid Config.hsm f = true → t.cntInvalid = s.cntInvalid ∧
        (t.dev.read (serialOf f)).valid = true ∧ (t.dev.read (serialOf f)).lastRawState = statusOf f ∧
        (t.dev.read (serialOf f)).lastUpdateTime = now ∧
        ∀ b, b ≠ serialOf f → t.dev.read b = s.dev.read b) ∧
      (frameValid Config.hsm f = false → t.cntInvalid = s.cntInvalid + 1 ∧ t.dev = s.dev)

/-! ## The line decoder's register -/

/-- R33 (decision D16) with R131 and R132: the decoder's states have the four 2-bit codes, every 2-bit value names the one
state it codes, bit 1 is the level and bit 0 the phase, and the register is 0b00 at reset. On every value of the register, a
chip leaves its own value in bit 1; bit 0 becomes 1 exactly when it was 0 and the level changes; a bit is emitted exactly when
bit 0 was 1, and it is the old bit 1. -/
def Obligations.LineDecoderRunsOnItsCodedRegister : Prop :=
  (LdState.code .lowA = 0b00 ∧ LdState.code .lowB = 0b01 ∧ LdState.code .highA = 0b10 ∧ LdState.code .highB = 0b11) ∧
  (∀ l : LdState, LdState.ofCode l.code = l ∧ l.code.getLsbD 1 = l.level ∧ l.code.getLsbD 0 = l.phase) ∧
  (∀ r : BitVec 2, (LdState.ofCode r).code = r) ∧
  State.reset.ldReg = 0b00 ∧
  (∀ (v : Bool) (r : BitVec 2) (s : State), s.ldReg = r → s.out.bit = none →
    ∃ t, exec (chipInstr v) s = .next t ∧
      t.ldReg.getLsbD 1 = v ∧
      t.ldReg.getLsbD 0 = (!r.getLsbD 0 && (v != r.getLsbD 1)) ∧
      t.out.bit = if r.getLsbD 0 then some (r.getLsbD 1) else none)
end

