-- ==== Sys2Proof/Laws/Decode.lean ====
section
/-! SUPPORT. The decoder, format by format. -/

namespace Sys2Proof

open Machine

/-- The operation a control word selects (R81, R82). -/
def ctlInstr (rst : Bool) (sym : BitVec 8) : Instr :=
  if rst then .reset sym else if sym = 0 then .sym0 else if sym = 1 then .sym1 else .symx sym

/-- What a control word can select. -/
theorem ctlInstr_cases (rst : Bool) (sym : BitVec 8) :
    (rst = true ∧ ctlInstr rst sym = .reset sym) ∨
    (rst = false ∧ ((sym = 0 ∧ ctlInstr rst sym = .sym0) ∨ (sym = 1 ∧ ctlInstr rst sym = .sym1) ∨
      (2 ≤ sym.toNat ∧ ctlInstr rst sym = .symx sym))) := by
  cases rst
  · refine Or.inr ⟨rfl, ?_⟩
    by_cases h0 : sym = 0
    · exact Or.inl ⟨h0, by rw [h0]; rfl⟩
    · by_cases h1 : sym = 1
      · exact Or.inr (Or.inl ⟨h1, by rw [h1]; rfl⟩)
      · refine Or.inr (Or.inr ⟨?_, ?_⟩)
        · have n0 : sym.toNat ≠ 0 := fun h => h0 (BitVec.eq_of_toNat_eq h)
          have n1 : sym.toNat ≠ 1 := fun h => h1 (BitVec.eq_of_toNat_eq h)
          omega
        · unfold ctlInstr
          rw [if_neg (by decide), if_neg h0, if_neg h1]
  · exact Or.inl ⟨rfl, rfl⟩

theorem ctlInstr_of_invalid {sym : BitVec 8} (h : 2 ≤ sym.toNat) : ctlInstr false sym = .symx sym := by
  rcases ctlInstr_cases false sym with h' | ⟨-, ⟨rfl, -⟩ | ⟨rfl, -⟩ | h'⟩
  · exact absurd h'.1 (by decide)
  · simp at h
  · simp at h
  · exact h'.2

/-- The rows of the CTL9 format, read off one control word. -/
theorem ctl9_rows (rst : Bool) (sym : BitVec 8) :
    (((rows Config.hsm).take 4).find? (Row.selects ⟨.ctl9, (ctlWord rst sym).setWidth 64⟩)).map
        (fun r => r.build ((ctlWord rst sym).setWidth 64)) = some (ctlInstr rst sym) := by
  revert rst sym
  decide

/-- Every control word selects an operation. -/
theorem decode_ctl (c : Config) (rst : Bool) (sym : BitVec 8) :
    decode c ⟨.ctl9, (ctlWord rst sym).setWidth 64⟩ = .ok (ctlInstr rst sym) := by
  have hw : ¬ 2 ^ Format.width .ctl9 ≤ ((ctlWord rst sym).setWidth 64).toNat := by
    have := (ctlWord rst sym).isLt
    simp only [BitVec.toNat_setWidth, Format.width]
    omega
  have hr : rows c = (rows Config.hsm).take 4 ++ (rows c).drop 4 := rfl
  have h := ctl9_rows rst sym
  unfold decode
  rw [if_neg hw, hr, List.find?_append]
  generalize ((rows Config.hsm).take 4).find? (Row.selects ⟨.ctl9, (ctlWord rst sym).setWidth 64⟩) = r at h
  cases r with
  | none => simp at h
  | some r =>
    simp only [Option.map_some, Option.some.injEq] at h
    simp [h]

/-! The FRAME64 rows. -/

theorem append_inj {n m : Nat} {a a' : BitVec n} {b b' : BitVec m} : a ++ b = a' ++ b' ↔ a = a' ∧ b = b' := by
  constructor
  · intro h
    constructor
    · have := congrArg (fun v => v.extractLsb' m n) h
      simpa [BitVec.extractLsb'_append_eq_left] using this
    · have := congrArg (fun v => v.extractLsb' 0 m) h
      simpa [BitVec.extractLsb'_append_eq_right] using this
  · rintro ⟨rfl, rfl⟩
    rfl

/-- A frame is its synchronization field, its `sof` and its 44 low bits (R86). -/
theorem frame_split (f : Frame) : f = syncOf f ++ (sofOf f ++ f.extractLsb' 0 44) := by
  apply BitVec.eq_of_getLsbD_eq
  intro i hi
  simp only [syncOf, sofOf, BitVec.getLsbD_append, BitVec.getLsbD_extractLsb']
  by_cases h : i < 48
  · by_cases h' : i < 44
    · simp [h, h']
    · have : i - 44 < 4 := by omega
      simp [h, h', this, show 44 + (i - 44) = i by omega]
  · have : i - 48 < 16 := by omega
    simp [h, this, show 48 + (i - 48) = i by omega]

theorem and_allOnes16 (x : BitVec 16) : x &&& 0xFFFF = x := BitVec.and_allOnes

/-- The mask of FRAME_DEF compares the synchronization field. -/
theorem frameDef_selects (c : Config) (f : Frame) :
    f &&& 0xFFFF000000000000 = framePattern c 0x000000000000 ↔ syncOf f = c.syncPattern := by
  have hm : (0xFFFF000000000000 : BitVec 64) = (0xFFFF : BitVec 16) ++ (0 : BitVec 48) := rfl
  conv_lhs => rw [frame_split f, hm, framePattern, BitVec.and_append, append_inj, and_allOnes16]
  exact and_iff_left BitVec.and_zero

theorem isAltSof_iff (b : BitVec 4) : isAltSof b = true ↔ b &&& 0x7 = 0x2 := by
  revert b
  decide

/-- The mask of FRAME_ALT compares the synchronization field and tests `sof ∈ ALT_SOF` (R92). -/
theorem frameAlt_selects (c : Config) (f : Frame) :
    f &&& 0xFFFF700000000000 = framePattern c 0x200000000000
      ↔ syncOf f = c.syncPattern ∧ isAltSof (sofOf f) = true := by
  have hm : (0xFFFF700000000000 : BitVec 64) = (0xFFFF : BitVec 16) ++ ((0x7 : BitVec 4) ++ (0 : BitVec 44)) := rfl
  have hp : (0x200000000000 : BitVec 48) = (0x2 : BitVec 4) ++ (0 : BitVec 44) := rfl
  conv_lhs =>
    rw [frame_split f, hm, framePattern, hp, BitVec.and_append, append_inj, and_allOnes16, BitVec.and_append, append_inj]
  rw [isAltSof_iff]
  exact and_congr_right fun _ => and_iff_left BitVec.and_zero

/-- A FRAME64 word with the synchronization pattern selects FRAME_ALT or FRAME_DEF by its `sof` (R92). -/
theorem decode_frame (c : Config) (f : Frame) (h : syncOf f = c.syncPattern) :
    decode c ⟨.frame64, f⟩ = .ok (if isAltSof (sofOf f) then .frameAlt f else .frameDef f) := by
  have hw : ¬ 2 ^ Format.width .frame64 ≤ f.toNat := by
    have := f.isLt
    simp only [Format.width]
    omega
  have hr : rows c = (rows c).take 8 ++ (rows c).drop 8 := rfl
  have hnone : ((rows c).take 8).find? (Row.selects ⟨.frame64, f⟩) = none := by
    simp [rows, Row.selects]
  have hd := (frameDef_selects c f).2 h
  unfold decode
  rw [if_neg hw, hr, List.find?_append, hnone]
  cases ha : isAltSof (sofOf f)
  · have hn : ¬ f &&& 0xFFFF700000000000 = framePattern c 0x200000000000 := by
      rw [frameAlt_selects]
      simp [ha]
    simp only [rows, Row.selects, List.drop, Option.none_or, List.find?_cons, beq_self_eq_true, Bool.true_and,
      beq_eq_false_iff_ne.2 hn, beq_iff_eq.2 hd]
    simp
  · have ht := (frameAlt_selects c f).2 ⟨h, ha⟩
    simp only [rows, Row.selects, List.drop, Option.none_or, List.find?_cons, beq_self_eq_true, Bool.true_and,
      beq_iff_eq.2 ht]
    simp

/-- A FRAME64 word without the synchronization pattern is rejected (R92). -/
theorem decode_frame_reject (c : Config) (f : Frame) (h : syncOf f ≠ c.syncPattern) :
    decode c ⟨.frame64, f⟩ = .error (.noRow .frame64) := by
  have hw : ¬ 2 ^ Format.width .frame64 ≤ f.toNat := by
    have := f.isLt
    simp only [Format.width]
    omega
  have hd := mt (frameDef_selects c f).1 h
  have ha : ¬ f &&& 0xFFFF700000000000 = framePattern c 0x200000000000 := by
    rw [frameAlt_selects]
    tauto
  have hr : rows c = (rows c).take 8 ++ (rows c).drop 8 := rfl
  have hnone : ((rows c).take 8).find? (Row.selects ⟨.frame64, f⟩) = none := by
    simp [rows, Row.selects]
  unfold decode
  rw [if_neg hw, hr, List.find?_append, hnone]
  simp only [rows, Row.selects, List.drop, Option.none_or, List.find?_cons, beq_self_eq_true, Bool.true_and,
    beq_eq_false_iff_ne.2 ha, beq_eq_false_iff_ne.2 hd]
  rfl

/-- Every UPD28 word selects UPDATE (R92). -/
theorem decode_upd (c : Config) (w : BitVec 64) (h : w.toNat < 2 ^ 28) :
    decode c ⟨.upd28, w⟩ = .ok (.update (w.extractLsb' 8 20) (w.extractLsb' 0 8)) := by
  have hw : ¬ 2 ^ Format.width .upd28 ≤ w.toNat := by
    simp only [Format.width]
    omega
  have hr : rows c = (rows c).take 10 ++ (rows c).drop 10 := rfl
  have hnone : ((rows c).take 10).find? (Row.selects ⟨.upd28, w⟩) = none := by
    simp [rows, Row.selects]
  unfold decode
  rw [if_neg hw, hr, List.find?_append, hnone]
  simp [rows, Row.selects]

end Sys2Proof
end

