-- ==== Sys2Proof/Laws/Memory.lean ====
section
/-! SUPPORT. The device table: what a read gives after a write, and that a write keeps the canonical form. -/

namespace Sys2Proof.Machine.Memory

/-! Reading after an insertion or a removal. -/

theorem readAt_insertAt_same (m : Memory) (a : Nat) (e : DevEntry) : readAt (insertAt m a e) a = e := by
  induction m with
  | nil => simp [insertAt, readAt]
  | cons ke m ih =>
    obtain ⟨k, x⟩ := ke
    unfold insertAt
    split
    · simp [readAt]
    · split
      · simp [readAt]
      · simp only [readAt]
        rw [if_neg (by omega), ih]

theorem readAt_insertAt_other (m : Memory) {a b : Nat} (e : DevEntry) (h : b ≠ a) :
    readAt (insertAt m a e) b = readAt m b := by
  induction m with
  | nil => simp [insertAt, readAt, Ne.symm h]
  | cons ke m ih =>
    obtain ⟨k, x⟩ := ke
    unfold insertAt
    split
    · simp [readAt, Ne.symm h]
    · split
      · rename_i hk
        simp [readAt, Ne.symm h, ← hk]
      · simp only [readAt, ih]

theorem readAt_filter_same (m : Memory) (a : Nat) :
    readAt (m.filter (fun ke => ke.1 != a)) a = DevEntry.empty := by
  induction m with
  | nil => rfl
  | cons ke m ih =>
    obtain ⟨k, x⟩ := ke
    by_cases hk : k = a <;> simp [hk, readAt, ih]

theorem readAt_filter_other (m : Memory) {a b : Nat} (h : b ≠ a) :
    readAt (m.filter (fun ke => ke.1 != a)) b = readAt m b := by
  induction m with
  | nil => rfl
  | cons ke m ih =>
    obtain ⟨k, x⟩ := ke
    by_cases hk : k = a
    · subst hk
      simp [readAt, ih, Ne.symm h]
    · simp [hk, readAt, ih]

/-- A read after a write of the same serial gives the entry written. -/
@[simp] theorem read_write_same (m : Memory) (s : Serial) (e : DevEntry) : (m.write s e).read s = e := by
  unfold write read
  split
  · rename_i h
    rw [readAt_filter_same, h]
  · exact readAt_insertAt_same m s.toNat e

/-- A write leaves the entry of every other serial alone. -/
theorem read_write_other (m : Memory) {s s' : Serial} (e : DevEntry) (h : s' ≠ s) :
    (m.write s e).read s' = m.read s' := by
  have hn : s'.toNat ≠ s.toNat := fun hc => h (BitVec.eq_of_toNat_eq hc)
  unfold write read
  split
  · exact readAt_filter_other m hn
  · exact readAt_insertAt_other m e hn

theorem read_write (m : Memory) (s s' : Serial) (e : DevEntry) :
    (m.write s e).read s' = if s' = s then e else m.read s' := by
  split
  · rename_i h
    rw [h, read_write_same]
  · rename_i h
    exact read_write_other m e h

@[simp] theorem read_nil (s : Serial) : read [] s = DevEntry.empty := rfl

/-! The canonical form. -/

theorem wf_nil : wf [] = true := rfl

/-- The table after reset has the canonical form. -/
theorem reset_dev_wf : wf State.reset.dev = true := wf_nil

/-- The canonical form, as propositions. -/
theorem wf_iff (m : Memory) :
    m.wf = true ↔ (m.map Prod.fst).Pairwise (· < ·) ∧ ∀ ke ∈ m, ke.1 < 2 ^ 20 ∧ ke.2 ≠ DevEntry.empty := by
  simp [wf, List.all_eq_true]

theorem mem_insertAt {m : Memory} {a : Nat} {e : DevEntry} {ke : Nat × DevEntry} (h : ke ∈ insertAt m a e) :
    ke = (a, e) ∨ ke ∈ m := by
  induction m with
  | nil => simpa [insertAt] using h
  | cons kx m ih =>
    obtain ⟨k, x⟩ := kx
    unfold insertAt at h
    split at h
    · simpa using h
    · split at h
      · simp only [List.mem_cons] at h ⊢
        tauto
      · simp only [List.mem_cons] at h ⊢
        rcases h with h | h
        · exact Or.inr (Or.inl h)
        · have := ih h
          tauto

theorem pairwise_insertAt {m : Memory} {a : Nat} {e : DevEntry} (h : (m.map Prod.fst).Pairwise (· < ·)) :
    ((insertAt m a e).map Prod.fst).Pairwise (· < ·) := by
  induction m with
  | nil => simp [insertAt]
  | cons kx m ih =>
    obtain ⟨k, x⟩ := kx
    simp only [List.map_cons, List.pairwise_cons] at h
    unfold insertAt
    split
    · rename_i hlt
      simp only [List.map_cons, List.pairwise_cons, List.mem_cons]
      refine ⟨?_, h⟩
      rintro b (rfl | hb)
      · exact hlt
      · exact Nat.lt_trans hlt (h.1 b hb)
    · split
      · rename_i heq
        subst heq
        simpa only [List.map_cons, List.pairwise_cons] using h
      · rename_i hnlt hne
        simp only [List.map_cons, List.pairwise_cons]
        refine ⟨?_, ih h.2⟩
        intro b hb
        obtain ⟨ke, hke, rfl⟩ := List.mem_map.1 hb
        rcases mem_insertAt hke with rfl | hin
        · simp only at *
          omega
        · exact h.1 _ (List.mem_map_of_mem hin)

/-- A whole-entry write keeps the canonical form. -/
theorem wf_write {m : Memory} (h : m.wf = true) (s : Serial) (e : DevEntry) : (m.write s e).wf = true := by
  rw [wf_iff] at h ⊢
  unfold write
  split
  · refine ⟨h.1.sublist (List.Sublist.map _ List.filter_sublist), ?_⟩
    intro ke hke
    exact h.2 ke (List.mem_filter.1 hke).1
  · rename_i hne
    refine ⟨pairwise_insertAt h.1, ?_⟩
    intro ke hke
    rcases mem_insertAt hke with rfl | hin
    · exact ⟨s.isLt, hne⟩
    · exact h.2 ke hin

theorem readAt_of_not_mem {m : Memory} {a : Nat} (h : ∀ ke ∈ m, ke.1 ≠ a) : readAt m a = DevEntry.empty := by
  induction m with
  | nil => rfl
  | cons kx m ih =>
    obtain ⟨k, x⟩ := kx
    simp only [readAt]
    rw [if_neg (h (k, x) (by simp)), ih (fun ke hke => h ke (by simp [hke]))]

/-- A listed entry reads as itself in a table of canonical form. -/
theorem readAt_of_mem {m : Memory} (h : (m.map Prod.fst).Pairwise (· < ·)) {ke : Nat × DevEntry} (hm : ke ∈ m) :
    readAt m ke.1 = ke.2 := by
  induction m with
  | nil => simp at hm
  | cons kx m ih =>
    obtain ⟨k, x⟩ := kx
    simp only [List.map_cons, List.pairwise_cons] at h
    rcases List.mem_cons.1 hm with rfl | hin
    · simp [readAt]
    · have hlt := h.1 ke.1 (List.mem_map_of_mem hin)
      simp only [readAt]
      rw [if_neg (by omega), ih h.2 hin]

end Sys2Proof.Machine.Memory
end

