-- ==== Sys2Proof/Laws/PerInstr.lean ====
section
/-! SUPPORT. Facts about every operation as syntax, one lemma per constructor. -/

namespace Sys2Proof.Laws

/-- The word of an operation has no bit above its format's width. -/
def EncodeFits.Statement (i : Instr) : Prop := (encode i).bits.toNat < 2 ^ (encode i).fmt.width

namespace EncodeFits

theorem reset (sym : BitVec 8) : Statement (.reset sym) := by
  have := (Machine.ctlWord true sym).isLt
  simp only [Statement, encode, Format.width, BitVec.toNat_setWidth]
  omega

theorem sym0 : Statement .sym0 := by
  unfold Statement
  decide

theorem sym1 : Statement .sym1 := by
  unfold Statement
  decide

theorem symx (sym : BitVec 8) : Statement (.symx sym) := by
  have := (Machine.ctlWord false sym).isLt
  simp only [Statement, encode, Format.width, BitVec.toNat_setWidth]
  omega

theorem chip0 : Statement .chip0 := by
  unfold Statement
  decide

theorem chip1 : Statement .chip1 := by
  unfold Statement
  decide

theorem bit0 : Statement .bit0 := by
  unfold Statement
  decide

theorem bit1 : Statement .bit1 := by
  unfold Statement
  decide

theorem frameAlt (f : Frame) : Statement (.frameAlt f) := f.isLt

theorem frameDef (f : Frame) : Statement (.frameDef f) := f.isLt

theorem update (serial : Serial) (status : Status) : Statement (.update serial status) := by
  have := (serial ++ status).isLt
  simp only [Statement, encode, Format.width, BitVec.toNat_setWidth]
  omega

end EncodeFits

end Sys2Proof.Laws
end

