-- ==== Sys2Proof/Laws/State.lean ====
section
/-! SUPPORT. One lemma for each field of the state under each of its updates, so that no proof unfolds a record update. -/

namespace Sys2Proof.Machine.State

@[simp] theorem setEr_erPrev (s : State) (p : Bool) (r : Count) : (s.setEr p r).erPrev = p := rfl
@[simp] theorem setEr_erRun (s : State) (p : Bool) (r : Count) : (s.setEr p r).erRun = r := rfl
@[simp] theorem setEr_ldState (s : State) (p : Bool) (r : Count) : (s.setEr p r).ldState = s.ldState := rfl
@[simp] theorem setEr_fsShreg (s : State) (p : Bool) (r : Count) : (s.setEr p r).fsShreg = s.fsShreg := rfl
@[simp] theorem setEr_cntTotal (s : State) (p : Bool) (r : Count) : (s.setEr p r).cntTotal = s.cntTotal := rfl
@[simp] theorem setEr_cntInvalid (s : State) (p : Bool) (r : Count) : (s.setEr p r).cntInvalid = s.cntInvalid := rfl
@[simp] theorem setEr_dev (s : State) (p : Bool) (r : Count) : (s.setEr p r).dev = s.dev := rfl
@[simp] theorem setEr_inputs (s : State) (p : Bool) (r : Count) : (s.setEr p r).inputs = s.inputs := rfl
@[simp] theorem setEr_direct (s : State) (p : Bool) (r : Count) : (s.setEr p r).direct = s.direct := rfl
@[simp] theorem setEr_now (s : State) (p : Bool) (r : Count) : (s.setEr p r).now = s.now := rfl
@[simp] theorem setEr_out (s : State) (p : Bool) (r : Count) : (s.setEr p r).out = s.out := rfl

@[simp] theorem setLd_erPrev (s : State) (l : LdState) : (s.setLd l).erPrev = s.erPrev := rfl
@[simp] theorem setLd_erRun (s : State) (l : LdState) : (s.setLd l).erRun = s.erRun := rfl
@[simp] theorem setLd_ldState (s : State) (l : LdState) : (s.setLd l).ldState = l := rfl
@[simp] theorem setLd_fsShreg (s : State) (l : LdState) : (s.setLd l).fsShreg = s.fsShreg := rfl
@[simp] theorem setLd_cntTotal (s : State) (l : LdState) : (s.setLd l).cntTotal = s.cntTotal := rfl
@[simp] theorem setLd_cntInvalid (s : State) (l : LdState) : (s.setLd l).cntInvalid = s.cntInvalid := rfl
@[simp] theorem setLd_dev (s : State) (l : LdState) : (s.setLd l).dev = s.dev := rfl
@[simp] theorem setLd_inputs (s : State) (l : LdState) : (s.setLd l).inputs = s.inputs := rfl
@[simp] theorem setLd_direct (s : State) (l : LdState) : (s.setLd l).direct = s.direct := rfl
@[simp] theorem setLd_now (s : State) (l : LdState) : (s.setLd l).now = s.now := rfl
@[simp] theorem setLd_out (s : State) (l : LdState) : (s.setLd l).out = s.out := rfl

@[simp] theorem setShreg_erPrev (s : State) (r : Frame) : (s.setShreg r).erPrev = s.erPrev := rfl
@[simp] theorem setShreg_erRun (s : State) (r : Frame) : (s.setShreg r).erRun = s.erRun := rfl
@[simp] theorem setShreg_ldState (s : State) (r : Frame) : (s.setShreg r).ldState = s.ldState := rfl
@[simp] theorem setShreg_fsShreg (s : State) (r : Frame) : (s.setShreg r).fsShreg = r := rfl
@[simp] theorem setShreg_cntTotal (s : State) (r : Frame) : (s.setShreg r).cntTotal = s.cntTotal := rfl
@[simp] theorem setShreg_cntInvalid (s : State) (r : Frame) : (s.setShreg r).cntInvalid = s.cntInvalid := rfl
@[simp] theorem setShreg_dev (s : State) (r : Frame) : (s.setShreg r).dev = s.dev := rfl
@[simp] theorem setShreg_inputs (s : State) (r : Frame) : (s.setShreg r).inputs = s.inputs := rfl
@[simp] theorem setShreg_direct (s : State) (r : Frame) : (s.setShreg r).direct = s.direct := rfl
@[simp] theorem setShreg_now (s : State) (r : Frame) : (s.setShreg r).now = s.now := rfl
@[simp] theorem setShreg_out (s : State) (r : Frame) : (s.setShreg r).out = s.out := rfl

@[simp] theorem setCounts_erPrev (s : State) (t i : Count) : (s.setCounts t i).erPrev = s.erPrev := rfl
@[simp] theorem setCounts_erRun (s : State) (t i : Count) : (s.setCounts t i).erRun = s.erRun := rfl
@[simp] theorem setCounts_ldState (s : State) (t i : Count) : (s.setCounts t i).ldState = s.ldState := rfl
@[simp] theorem setCounts_fsShreg (s : State) (t i : Count) : (s.setCounts t i).fsShreg = s.fsShreg := rfl
@[simp] theorem setCounts_cntTotal (s : State) (t i : Count) : (s.setCounts t i).cntTotal = t := rfl
@[simp] theorem setCounts_cntInvalid (s : State) (t i : Count) : (s.setCounts t i).cntInvalid = i := rfl
@[simp] theorem setCounts_dev (s : State) (t i : Count) : (s.setCounts t i).dev = s.dev := rfl
@[simp] theorem setCounts_inputs (s : State) (t i : Count) : (s.setCounts t i).inputs = s.inputs := rfl
@[simp] theorem setCounts_direct (s : State) (t i : Count) : (s.setCounts t i).direct = s.direct := rfl
@[simp] theorem setCounts_now (s : State) (t i : Count) : (s.setCounts t i).now = s.now := rfl
@[simp] theorem setCounts_out (s : State) (t i : Count) : (s.setCounts t i).out = s.out := rfl

@[simp] theorem setDev_erPrev (s : State) (m : Memory) : (s.setDev m).erPrev = s.erPrev := rfl
@[simp] theorem setDev_erRun (s : State) (m : Memory) : (s.setDev m).erRun = s.erRun := rfl
@[simp] theorem setDev_ldState (s : State) (m : Memory) : (s.setDev m).ldState = s.ldState := rfl
@[simp] theorem setDev_fsShreg (s : State) (m : Memory) : (s.setDev m).fsShreg = s.fsShreg := rfl
@[simp] theorem setDev_cntTotal (s : State) (m : Memory) : (s.setDev m).cntTotal = s.cntTotal := rfl
@[simp] theorem setDev_cntInvalid (s : State) (m : Memory) : (s.setDev m).cntInvalid = s.cntInvalid := rfl
@[simp] theorem setDev_dev (s : State) (m : Memory) : (s.setDev m).dev = m := rfl
@[simp] theorem setDev_inputs (s : State) (m : Memory) : (s.setDev m).inputs = s.inputs := rfl
@[simp] theorem setDev_direct (s : State) (m : Memory) : (s.setDev m).direct = s.direct := rfl
@[simp] theorem setDev_now (s : State) (m : Memory) : (s.setDev m).now = s.now := rfl
@[simp] theorem setDev_out (s : State) (m : Memory) : (s.setDev m).out = s.out := rfl

@[simp] theorem setOut_erPrev (s : State) (o : OutRecord) : (s.setOut o).erPrev = s.erPrev := rfl
@[simp] theorem setOut_erRun (s : State) (o : OutRecord) : (s.setOut o).erRun = s.erRun := rfl
@[simp] theorem setOut_ldState (s : State) (o : OutRecord) : (s.setOut o).ldState = s.ldState := rfl
@[simp] theorem setOut_fsShreg (s : State) (o : OutRecord) : (s.setOut o).fsShreg = s.fsShreg := rfl
@[simp] theorem setOut_cntTotal (s : State) (o : OutRecord) : (s.setOut o).cntTotal = s.cntTotal := rfl
@[simp] theorem setOut_cntInvalid (s : State) (o : OutRecord) : (s.setOut o).cntInvalid = s.cntInvalid := rfl
@[simp] theorem setOut_dev (s : State) (o : OutRecord) : (s.setOut o).dev = s.dev := rfl
@[simp] theorem setOut_inputs (s : State) (o : OutRecord) : (s.setOut o).inputs = s.inputs := rfl
@[simp] theorem setOut_direct (s : State) (o : OutRecord) : (s.setOut o).direct = s.direct := rfl
@[simp] theorem setOut_now (s : State) (o : OutRecord) : (s.setOut o).now = s.now := rfl
@[simp] theorem setOut_out (s : State) (o : OutRecord) : (s.setOut o).out = o := rfl

@[simp] theorem emitChip_erPrev (s : State) (v : Bool) : (s.emitChip v).erPrev = s.erPrev := rfl
@[simp] theorem emitChip_erRun (s : State) (v : Bool) : (s.emitChip v).erRun = s.erRun := rfl
@[simp] theorem emitChip_ldState (s : State) (v : Bool) : (s.emitChip v).ldState = s.ldState := rfl
@[simp] theorem emitChip_fsShreg (s : State) (v : Bool) : (s.emitChip v).fsShreg = s.fsShreg := rfl
@[simp] theorem emitChip_cntTotal (s : State) (v : Bool) : (s.emitChip v).cntTotal = s.cntTotal := rfl
@[simp] theorem emitChip_cntInvalid (s : State) (v : Bool) : (s.emitChip v).cntInvalid = s.cntInvalid := rfl
@[simp] theorem emitChip_dev (s : State) (v : Bool) : (s.emitChip v).dev = s.dev := rfl
@[simp] theorem emitChip_inputs (s : State) (v : Bool) : (s.emitChip v).inputs = s.inputs := rfl
@[simp] theorem emitChip_direct (s : State) (v : Bool) : (s.emitChip v).direct = s.direct := rfl
@[simp] theorem emitChip_now (s : State) (v : Bool) : (s.emitChip v).now = s.now := rfl
@[simp] theorem emitChip_out (s : State) (v : Bool) : (s.emitChip v).out = { s.out with chip := some v } := rfl

@[simp] theorem emitBit_erPrev (s : State) (b : Bool) : (s.emitBit b).erPrev = s.erPrev := rfl
@[simp] theorem emitBit_erRun (s : State) (b : Bool) : (s.emitBit b).erRun = s.erRun := rfl
@[simp] theorem emitBit_ldState (s : State) (b : Bool) : (s.emitBit b).ldState = s.ldState := rfl
@[simp] theorem emitBit_fsShreg (s : State) (b : Bool) : (s.emitBit b).fsShreg = s.fsShreg := rfl
@[simp] theorem emitBit_cntTotal (s : State) (b : Bool) : (s.emitBit b).cntTotal = s.cntTotal := rfl
@[simp] theorem emitBit_cntInvalid (s : State) (b : Bool) : (s.emitBit b).cntInvalid = s.cntInvalid := rfl
@[simp] theorem emitBit_dev (s : State) (b : Bool) : (s.emitBit b).dev = s.dev := rfl
@[simp] theorem emitBit_inputs (s : State) (b : Bool) : (s.emitBit b).inputs = s.inputs := rfl
@[simp] theorem emitBit_direct (s : State) (b : Bool) : (s.emitBit b).direct = s.direct := rfl
@[simp] theorem emitBit_now (s : State) (b : Bool) : (s.emitBit b).now = s.now := rfl
@[simp] theorem emitBit_out (s : State) (b : Bool) : (s.emitBit b).out = { s.out with bit := some b } := rfl

@[simp] theorem emitFrame_erPrev (s : State) (o : FrameOutcome) : (s.emitFrame o).erPrev = s.erPrev := rfl
@[simp] theorem emitFrame_erRun (s : State) (o : FrameOutcome) : (s.emitFrame o).erRun = s.erRun := rfl
@[simp] theorem emitFrame_ldState (s : State) (o : FrameOutcome) : (s.emitFrame o).ldState = s.ldState := rfl
@[simp] theorem emitFrame_fsShreg (s : State) (o : FrameOutcome) : (s.emitFrame o).fsShreg = s.fsShreg := rfl
@[simp] theorem emitFrame_cntTotal (s : State) (o : FrameOutcome) : (s.emitFrame o).cntTotal = s.cntTotal := rfl
@[simp] theorem emitFrame_cntInvalid (s : State) (o : FrameOutcome) : (s.emitFrame o).cntInvalid = s.cntInvalid := rfl
@[simp] theorem emitFrame_dev (s : State) (o : FrameOutcome) : (s.emitFrame o).dev = s.dev := rfl
@[simp] theorem emitFrame_inputs (s : State) (o : FrameOutcome) : (s.emitFrame o).inputs = s.inputs := rfl
@[simp] theorem emitFrame_direct (s : State) (o : FrameOutcome) : (s.emitFrame o).direct = s.direct := rfl
@[simp] theorem emitFrame_now (s : State) (o : FrameOutcome) : (s.emitFrame o).now = s.now := rfl
@[simp] theorem emitFrame_out (s : State) (o : FrameOutcome) : (s.emitFrame o).out = { s.out with frame := o } := rfl

@[simp] theorem emitUpd_erPrev (s : State) (a : Serial) (st : Status) : (s.emitUpd a st).erPrev = s.erPrev := rfl
@[simp] theorem emitUpd_erRun (s : State) (a : Serial) (st : Status) : (s.emitUpd a st).erRun = s.erRun := rfl
@[simp] theorem emitUpd_ldState (s : State) (a : Serial) (st : Status) : (s.emitUpd a st).ldState = s.ldState := rfl
@[simp] theorem emitUpd_fsShreg (s : State) (a : Serial) (st : Status) : (s.emitUpd a st).fsShreg = s.fsShreg := rfl
@[simp] theorem emitUpd_cntTotal (s : State) (a : Serial) (st : Status) : (s.emitUpd a st).cntTotal = s.cntTotal := rfl
@[simp] theorem emitUpd_cntInvalid (s : State) (a : Serial) (st : Status) : (s.emitUpd a st).cntInvalid = s.cntInvalid := rfl
@[simp] theorem emitUpd_dev (s : State) (a : Serial) (st : Status) : (s.emitUpd a st).dev = s.dev := rfl
@[simp] theorem emitUpd_inputs (s : State) (a : Serial) (st : Status) : (s.emitUpd a st).inputs = s.inputs := rfl
@[simp] theorem emitUpd_direct (s : State) (a : Serial) (st : Status) : (s.emitUpd a st).direct = s.direct := rfl
@[simp] theorem emitUpd_now (s : State) (a : Serial) (st : Status) : (s.emitUpd a st).now = s.now := rfl
@[simp] theorem emitUpd_out (s : State) (a : Serial) (st : Status) : (s.emitUpd a st).out = { s.out with upd := some (a, st) } := rfl

@[simp] theorem emitNtf_erPrev (s : State) (w : BitVec 23) : (s.emitNtf w).erPrev = s.erPrev := rfl
@[simp] theorem emitNtf_erRun (s : State) (w : BitVec 23) : (s.emitNtf w).erRun = s.erRun := rfl
@[simp] theorem emitNtf_ldState (s : State) (w : BitVec 23) : (s.emitNtf w).ldState = s.ldState := rfl
@[simp] theorem emitNtf_fsShreg (s : State) (w : BitVec 23) : (s.emitNtf w).fsShreg = s.fsShreg := rfl
@[simp] theorem emitNtf_cntTotal (s : State) (w : BitVec 23) : (s.emitNtf w).cntTotal = s.cntTotal := rfl
@[simp] theorem emitNtf_cntInvalid (s : State) (w : BitVec 23) : (s.emitNtf w).cntInvalid = s.cntInvalid := rfl
@[simp] theorem emitNtf_dev (s : State) (w : BitVec 23) : (s.emitNtf w).dev = s.dev := rfl
@[simp] theorem emitNtf_inputs (s : State) (w : BitVec 23) : (s.emitNtf w).inputs = s.inputs := rfl
@[simp] theorem emitNtf_direct (s : State) (w : BitVec 23) : (s.emitNtf w).direct = s.direct := rfl
@[simp] theorem emitNtf_now (s : State) (w : BitVec 23) : (s.emitNtf w).now = s.now := rfl
@[simp] theorem emitNtf_out (s : State) (w : BitVec 23) : (s.emitNtf w).out = { s.out with ntf := some w } := rfl

@[simp] theorem finish_erPrev (s : State) : (Sys2Proof.Machine.finish s).erPrev = s.erPrev := rfl
@[simp] theorem finish_erRun (s : State) : (Sys2Proof.Machine.finish s).erRun = s.erRun := rfl
@[simp] theorem finish_ldState (s : State) : (Sys2Proof.Machine.finish s).ldState = s.ldState := rfl
@[simp] theorem finish_fsShreg (s : State) : (Sys2Proof.Machine.finish s).fsShreg = s.fsShreg := rfl
@[simp] theorem finish_cntTotal (s : State) : (Sys2Proof.Machine.finish s).cntTotal = s.cntTotal := rfl
@[simp] theorem finish_cntInvalid (s : State) : (Sys2Proof.Machine.finish s).cntInvalid = s.cntInvalid := rfl
@[simp] theorem finish_dev (s : State) : (Sys2Proof.Machine.finish s).dev = s.dev := rfl
@[simp] theorem finish_inputs (s : State) : (Sys2Proof.Machine.finish s).inputs = s.inputs := rfl
@[simp] theorem finish_direct (s : State) : (Sys2Proof.Machine.finish s).direct = s.direct := rfl
@[simp] theorem finish_now (s : State) : (Sys2Proof.Machine.finish s).now = 0 := rfl
@[simp] theorem finish_out (s : State) : (Sys2Proof.Machine.finish s).out = { s.out with cntTotal := s.cntTotal, cntInvalid := s.cntInvalid } := rfl

@[simp] theorem idle_erPrev (s : State) : (Sys2Proof.Machine.idle s).erPrev = s.erPrev := rfl
@[simp] theorem idle_erRun (s : State) : (Sys2Proof.Machine.idle s).erRun = s.erRun := rfl
@[simp] theorem idle_ldState (s : State) : (Sys2Proof.Machine.idle s).ldState = s.ldState := rfl
@[simp] theorem idle_fsShreg (s : State) : (Sys2Proof.Machine.idle s).fsShreg = s.fsShreg := rfl
@[simp] theorem idle_cntTotal (s : State) : (Sys2Proof.Machine.idle s).cntTotal = s.cntTotal := rfl
@[simp] theorem idle_cntInvalid (s : State) : (Sys2Proof.Machine.idle s).cntInvalid = s.cntInvalid := rfl
@[simp] theorem idle_dev (s : State) : (Sys2Proof.Machine.idle s).dev = s.dev := rfl
@[simp] theorem idle_inputs (s : State) : (Sys2Proof.Machine.idle s).inputs = s.inputs := rfl
@[simp] theorem idle_direct (s : State) : (Sys2Proof.Machine.idle s).direct = s.direct := rfl
@[simp] theorem idle_now (s : State) : (Sys2Proof.Machine.idle s).now = 0 := rfl
@[simp] theorem idle_out (s : State) : (Sys2Proof.Machine.idle s).out = { OutRecord.blank with cntTotal := s.cntTotal, cntInvalid := s.cntInvalid } := rfl

end Sys2Proof.Machine.State
end

