-- ==== Sys2Proof/Laws/Tracker.lean ====
section
/-! SUPPORT. What the flag computations and UPDATE do, each said once. -/

namespace Sys2Proof.Machine

theorem lowerBaseline_toNat (ab b : Status) : (lowerBaseline ab b).toNat = min ab.toNat b.toNat := by
  unfold lowerBaseline
  split <;> rename_i h <;> rw [BitVec.lt_def] at h <;> omega

theorem lowerBaseline_le_bits (ab b : Status) : lowerBaseline ab b ≤ ab := by
  rw [BitVec.le_def, lowerBaseline_toNat]
  omega

theorem lowerBaseline_le_baseline (ab b : Status) : lowerBaseline ab b ≤ b := by
  rw [BitVec.le_def, lowerBaseline_toNat]
  omega

theorem alarmFlag_eq_true_iff (ab b : Status) : alarmFlag ab b = true ↔ b.toNat < ab.toNat := by
  simp [alarmFlag, BitVec.lt_def]

theorem heartbeatDue_iff (c : Config) (now last : Time) :
    heartbeatDue c now last = true ↔ last.toNat + c.heartbeatSec < now.toNat := by
  simp only [heartbeatDue, decide_eq_true_eq]
  omega

/-! The entry of step 1. -/

@[simp] theorem sighted_valid (e : DevEntry) : (sighted e).valid = true := by
  unfold sighted
  split
  · assumption
  · rfl

theorem sighted_of_valid {e : DevEntry} (h : e.valid = true) : sighted e = e := by
  simp [sighted, h]

theorem sighted_of_unseen {e : DevEntry} (h : e.valid = false) :
    sighted e = { DevEntry.empty with valid := true } := by
  simp [sighted, h]

/-! The fields of the entry UPDATE stores. -/

section
variable (c : Config) (st : Status) (t : Time) (e : DevEntry)

@[simp] theorem trackEntry_valid : (trackEntry c st t e).valid = e.valid := rfl
@[simp] theorem trackEntry_lastRawState : (trackEntry c st t e).lastRawState = st := rfl
@[simp] theorem trackEntry_alarmBaseline :
    (trackEntry c st t e).alarmBaseline = lowerBaseline (alarmBits c st) e.alarmBaseline := rfl
@[simp] theorem trackEntry_alarm :
    (trackEntry c st t e).alarm = alarmFlag (alarmBits c st) (lowerBaseline (alarmBits c st) e.alarmBaseline) := rfl
@[simp] theorem trackEntry_tamper : (trackEntry c st t e).tamper = tamperFlag c st := rfl
@[simp] theorem trackEntry_batteryLow : (trackEntry c st t e).batteryLow = batteryFlag c st := rfl
@[simp] theorem trackEntry_lastUpdateTime : (trackEntry c st t e).lastUpdateTime = t := rfl
theorem trackEntry_lastAlarmTime :
    (trackEntry c st t e).lastAlarmTime
      = if (trackEntry c st t e).alarm && !e.alarm then t else e.lastAlarmTime := rfl

/-- A sighted entry is not `EMPTY`. -/
theorem trackEntry_ne_empty : trackEntry c st t (sighted e) ≠ DevEntry.empty := by
  intro h
  have := congrArg DevEntry.valid h
  simp [DevEntry.empty] at this

end

/-- Everything UPDATE does: the entry of its serial, and the notification when it notifies. -/
theorem opUpdate_eq (c : Config) (a : Serial) (st : Status) (s : State) :
    opUpdate c a st s =
      { s with
        dev := s.dev.write a (trackEntry c st s.now (sighted (s.dev.read a)))
        out := { s.out with
          ntf := if notifies c st s.now (s.dev.read a)
            then some (entryWord a (trackEntry c st s.now (sighted (s.dev.read a)))) else s.out.ntf } } := by
  unfold opUpdate
  cases h : notifies c st s.now (s.dev.read a) <;> simp [h] <;> rfl

end Sys2Proof.Machine
end

