-- ==== Sys2Proof/Laws/Pipeline.lean ====
section
/-! SUPPORT. What each stage does, one lemma per case of its pseudocode, and what each stage leaves alone. Callers cite
these and do not unfold a stage. -/

namespace Sys2Proof.Machine

/-! Frame Validator. -/

theorem callFrame_eq (c : Config) (f : Frame) (s : State) : callFrame c f s = fvFrame c f s := by
  unfold callFrame
  split <;> rfl

/-- A valid frame counts, is shown, and updates its device (R178). -/
theorem fvFrame_of_valid {c : Config} {f : Frame} (h : frameValid c f = true) (s : State) :
    fvFrame c f s =
      opUpdate c (serialOf f) (statusOf f)
        { s with
          cntTotal := s.cntTotal + 1
          out := { s.out with frame := .ok f, upd := some (serialOf f, statusOf f) } } := by
  unfold fvFrame
  rw [if_pos h]
  rfl

/-- An invalid frame counts twice and is shown (R179). -/
theorem fvFrame_of_invalid {c : Config} {f : Frame} (h : frameValid c f = false) (s : State) :
    fvFrame c f s =
      { s with
        cntTotal := s.cntTotal + 1
        cntInvalid := s.cntInvalid + 1
        out := { s.out with frame := .bad f } } := by
  unfold fvFrame
  rw [h]
  rfl

/-! Frame Synchronizer. -/

theorem callBit_eq (c : Config) (b : Bool) (s : State) : callBit c b s = fsBit c b s := by
  cases b <;> rfl

/-- On a match the register is cleared and the frame handed on (R153). -/
theorem fsBit_of_match {c : Config} {b : Bool} {s : State} (h : syncOf (shiftIn s.fsShreg b) = c.syncPattern) :
    fsBit c b s = fvFrame c (shiftIn s.fsShreg b) { s with fsShreg := 0 } := by
  unfold fsBit
  simp only [h, if_true, callFrame_eq]
  rfl

/-- Without a match the shifted register is kept (R153). -/
theorem fsBit_of_no_match {c : Config} {b : Bool} {s : State} (h : syncOf (shiftIn s.fsShreg b) ≠ c.syncPattern) :
    fsBit c b s = { s with fsShreg := shiftIn s.fsShreg b } := by
  unfold fsBit
  simp only [h, if_false]
  rfl

/-! Line Decoder. -/

/-! The code of the state register (R33). -/

@[simp] theorem LdState.ofCode_code (l : LdState) : LdState.ofCode l.code = l := by cases l <;> rfl

@[simp] theorem LdState.code_ofCode (r : BitVec 2) : (LdState.ofCode r).code = r := by revert r; decide

@[simp] theorem LdState.code_level (l : LdState) : l.code[1] = l.level := by cases l <;> rfl

@[simp] theorem LdState.code_phase (l : LdState) : l.code[0] = l.phase := by cases l <;> rfl

/-- The A state of a level (R33). -/
def levelState (v : Bool) : LdState := if v then .highA else .lowA

theorem callChip_of_lowA {c : Config} {s : State} (v : Bool) (h : s.ldState = .lowA) :
    callChip c v s = { s with ldState := if v then .highB else .lowA } := by
  cases v <;> simp [callChip, opChip0, opChip1, h, State.setLd]

theorem callChip_of_highA {c : Config} {s : State} (v : Bool) (h : s.ldState = .highA) :
    callChip c v s = { s with ldState := if v then .highA else .lowB } := by
  cases v <;> simp [callChip, opChip0, opChip1, h, State.setLd]

theorem callChip_of_lowB {c : Config} {s : State} (v : Bool) (h : s.ldState = .lowB) :
    callChip c v s =
      fsBit c false { s with ldState := levelState v, out := { s.out with bit := some false } } := by
  cases v <;> simp [callChip, opChip0, opChip1, h, ldEmit, levelState, callBit_eq] <;> rfl

theorem callChip_of_highB {c : Config} {s : State} (v : Bool) (h : s.ldState = .highB) :
    callChip c v s =
      fsBit c true { s with ldState := levelState v, out := { s.out with bit := some true } } := by
  cases v <;> simp [callChip, opChip0, opChip1, h, ldEmit, levelState, callBit_eq] <;> rfl

/-! Symbol Edge Recognizer. -/

theorem erSample_of_chip {c : Config} {v : Bool} {s : State} (h : midChip c (nextRun v s) = true) :
    erSample c v s =
      callChip c v { s with erPrev := v, erRun := nextRun v s, out := { s.out with chip := some v } } := by
  unfold erSample
  simp only [State.setEr_erRun, h, if_true]
  rfl

theorem erSample_of_no_chip {c : Config} {v : Bool} {s : State} (h : midChip c (nextRun v s) = false) :
    erSample c v s = { s with erPrev := v, erRun := nextRun v s } := by
  unfold erSample
  simp only [State.setEr_erRun, h, if_false, Bool.false_eq_true]
  rfl

/-! What the stages leave alone (R30, column "written by"). -/

/-- Two states agree on what no stage writes. -/
structure SameHost (s t : State) : Prop where
  inputs : t.inputs = s.inputs
  direct : t.direct = s.direct
  now : t.now = s.now

/-- Two states agree on the recognizer's registers. -/
structure SameEr (s t : State) : Prop where
  prev : t.erPrev = s.erPrev
  run : t.erRun = s.erRun

theorem fvFrame_keeps (c : Config) (f : Frame) (s : State) :
    SameHost s (fvFrame c f s) ∧ SameEr s (fvFrame c f s)
      ∧ (fvFrame c f s).ldState = s.ldState ∧ (fvFrame c f s).fsShreg = s.fsShreg
      ∧ (fvFrame c f s).out.chip = s.out.chip ∧ (fvFrame c f s).out.bit = s.out.bit := by
  cases h : frameValid c f
  · rw [fvFrame_of_invalid h]
    exact ⟨⟨rfl, rfl, rfl⟩, ⟨rfl, rfl⟩, rfl, rfl, rfl, rfl⟩
  · rw [fvFrame_of_valid h, opUpdate_eq]
    exact ⟨⟨rfl, rfl, rfl⟩, ⟨rfl, rfl⟩, rfl, rfl, rfl, rfl⟩

theorem fsBit_keeps (c : Config) (b : Bool) (s : State) :
    SameHost s (fsBit c b s) ∧ SameEr s (fsBit c b s) ∧ (fsBit c b s).ldState = s.ldState
      ∧ (fsBit c b s).out.chip = s.out.chip ∧ (fsBit c b s).out.bit = s.out.bit := by
  by_cases h : syncOf (shiftIn s.fsShreg b) = c.syncPattern
  · rw [fsBit_of_match h]
    obtain ⟨hh, he, hl, -, hc, hb⟩ := fvFrame_keeps c (shiftIn s.fsShreg b) { s with fsShreg := 0 }
    exact ⟨⟨hh.inputs, hh.direct, hh.now⟩, ⟨he.prev, he.run⟩, hl, hc, hb⟩
  · rw [fsBit_of_no_match h]
    exact ⟨⟨rfl, rfl, rfl⟩, ⟨rfl, rfl⟩, rfl, rfl, rfl⟩

theorem callChip_keeps (c : Config) (v : Bool) (s : State) :
    SameHost s (callChip c v s) ∧ SameEr s (callChip c v s) ∧ (callChip c v s).out.chip = s.out.chip := by
  cases h : s.ldState
  · rw [callChip_of_lowA v h]
    exact ⟨⟨rfl, rfl, rfl⟩, ⟨rfl, rfl⟩, rfl⟩
  · rw [callChip_of_lowB v h]
    obtain ⟨hh, he, -, hc, -⟩ :=
      fsBit_keeps c false { s with ldState := levelState v, out := { s.out with bit := some false } }
    exact ⟨⟨hh.inputs, hh.direct, hh.now⟩, ⟨he.prev, he.run⟩, hc⟩
  · rw [callChip_of_highA v h]
    exact ⟨⟨rfl, rfl, rfl⟩, ⟨rfl, rfl⟩, rfl⟩
  · rw [callChip_of_highB v h]
    obtain ⟨hh, he, -, hc, -⟩ :=
      fsBit_keeps c true { s with ldState := levelState v, out := { s.out with bit := some true } }
    exact ⟨⟨hh.inputs, hh.direct, hh.now⟩, ⟨he.prev, he.run⟩, hc⟩

theorem erSample_keeps (c : Config) (v : Bool) (s : State) :
    SameHost s (erSample c v s) ∧ (erSample c v s).erPrev = v ∧ (erSample c v s).erRun = nextRun v s := by
  cases h : midChip c (nextRun v s)
  · rw [erSample_of_no_chip h]
    exact ⟨⟨rfl, rfl, rfl⟩, rfl, rfl⟩
  · rw [erSample_of_chip h]
    obtain ⟨hh, he, -⟩ :=
      callChip_keeps c v { s with erPrev := v, erRun := nextRun v s, out := { s.out with chip := some v } }
    exact ⟨⟨hh.inputs, hh.direct, hh.now⟩, he.prev, he.run⟩

/-! Everything a bit and a sample can do. -/

/-- The three results of a bit: kept, an invalid frame, a valid frame. -/
theorem fsBit_cases (c : Config) (b : Bool) (s : State) :
    (syncOf (shiftIn s.fsShreg b) ≠ c.syncPattern ∧ fsBit c b s = { s with fsShreg := shiftIn s.fsShreg b }) ∨
    (syncOf (shiftIn s.fsShreg b) = c.syncPattern ∧ frameValid c (shiftIn s.fsShreg b) = false ∧
      fsBit c b s = { s with
        fsShreg := 0
        cntTotal := s.cntTotal + 1
        cntInvalid := s.cntInvalid + 1
        out := { s.out with frame := .bad (shiftIn s.fsShreg b) } }) ∨
    (syncOf (shiftIn s.fsShreg b) = c.syncPattern ∧ frameValid c (shiftIn s.fsShreg b) = true ∧
      fsBit c b s =
        opUpdate c (serialOf (shiftIn s.fsShreg b)) (statusOf (shiftIn s.fsShreg b)) { s with
          fsShreg := 0
          cntTotal := s.cntTotal + 1
          out := { s.out with
            frame := .ok (shiftIn s.fsShreg b)
            upd := some (serialOf (shiftIn s.fsShreg b), statusOf (shiftIn s.fsShreg b)) } }) := by
  by_cases h : syncOf (shiftIn s.fsShreg b) = c.syncPattern
  · rw [fsBit_of_match h]
    cases hv : frameValid c (shiftIn s.fsShreg b)
    · exact Or.inr (Or.inl ⟨h, rfl, fvFrame_of_invalid hv _⟩)
    · exact Or.inr (Or.inr ⟨h, rfl, fvFrame_of_valid hv _⟩)
  · exact Or.inl ⟨h, fsBit_of_no_match h⟩

/-- The two results of a chip: a new decoder state alone, or a bit as well. -/
theorem callChip_cases (c : Config) (v : Bool) (s : State) :
    (∃ l, callChip c v s = { s with ldState := l }) ∨
    (∃ l b, callChip c v s = fsBit c b { s with ldState := l, out := { s.out with bit := some b } }) := by
  cases h : s.ldState
  · exact Or.inl ⟨_, callChip_of_lowA v h⟩
  · exact Or.inr ⟨_, _, callChip_of_lowB v h⟩
  · exact Or.inl ⟨_, callChip_of_highA v h⟩
  · exact Or.inr ⟨_, _, callChip_of_highB v h⟩

/-- The three results of a sample: a count alone, a chip as well, or a chip and a bit as well. -/
theorem erSample_cases (c : Config) (v : Bool) (s : State) :
    erSample c v s = { s with erPrev := v, erRun := nextRun v s } ∨
    (∃ l, erSample c v s = { s with
      erPrev := v
      erRun := nextRun v s
      ldState := l
      out := { s.out with chip := some v } }) ∨
    (∃ l b, erSample c v s = fsBit c b { s with
      erPrev := v
      erRun := nextRun v s
      ldState := l
      out := { s.out with chip := some v, bit := some b } }) := by
  cases h : midChip c (nextRun v s)
  · exact Or.inl (erSample_of_no_chip h)
  · rw [erSample_of_chip h]
    rcases callChip_cases c v
        { s with erPrev := v, erRun := nextRun v s, out := { s.out with chip := some v } } with ⟨l, hl⟩ | ⟨l, b, hl⟩
    · exact Or.inr (Or.inl ⟨l, hl⟩)
    · exact Or.inr (Or.inr ⟨l, b, hl⟩)

/-! What the operations are. -/

@[simp] theorem opFrameAlt_eq (c : Config) (f : Frame) (s : State) : opFrameAlt c f s = fvFrame c f s := rfl
@[simp] theorem opFrameDef_eq (c : Config) (f : Frame) (s : State) : opFrameDef c f s = fvFrame c f s := rfl
@[simp] theorem opBit0_eq (c : Config) (s : State) : opBit0 c s = fsBit c false s := rfl
@[simp] theorem opBit1_eq (c : Config) (s : State) : opBit1 c s = fsBit c true s := rfl
theorem opChip0_eq (c : Config) (s : State) : opChip0 c s = callChip c false s := rfl
theorem opChip1_eq (c : Config) (s : State) : opChip1 c s = callChip c true s := rfl
@[simp] theorem opSym0_eq (c : Config) (s : State) : opSym0 c s = erSample c false s := rfl
@[simp] theorem opSym1_eq (c : Config) (s : State) : opSym1 c s = erSample c true s := rfl

end Sys2Proof.Machine
end

