-- ==== Sys2Proof/Laws/Step.lean ====
section
/-! SUPPORT. What `exec` and `step` answer, said once. -/

namespace Sys2Proof.Machine

/-- The state an operation leaves (the instance `Config.hsm`). -/
def opOf (i : Instr) (s : State) : State :=
  match i with
  | .reset _ => opReset s
  | .sym0 => erSample Config.hsm false s
  | .sym1 => erSample Config.hsm true s
  | .symx _ => s
  | .chip0 => callChip Config.hsm false s
  | .chip1 => callChip Config.hsm true s
  | .bit0 => fsBit Config.hsm false s
  | .bit1 => fsBit Config.hsm true s
  | .frameAlt f => fvFrame Config.hsm f s
  | .frameDef f => fvFrame Config.hsm f s
  | .update a st => opUpdate Config.hsm a st s

theorem exec_eq (i : Instr) (s : State) : exec i s = .next (opOf i s) := by
  cases i <;> rfl

/-- A step on the next input record runs the operation its control word selects. -/
theorem step_of_record {s : State} {r : InRecord} {rest : List InRecord} (hd : s.direct = none)
    (hi : s.inputs = r :: rest) :
    step s = .next (finish (opOf (ctlInstr r.rst r.sym)
      { s with inputs := rest, now := r.now, out := OutRecord.blank })) := by
  unfold step fetch
  simp only [hd, hi, decode_ctl, exec_eq]

/-- A step on an operation handed to its stage runs the operation its word decodes to. -/
theorem step_of_direct {s : State} {w : OpWord} {i : Instr} (hd : s.direct = some w)
    (hw : decode Config.hsm w = .ok i) :
    step s = .next (finish (opOf i { s with direct := none, out := OutRecord.blank })) := by
  unfold step fetch
  simp only [hd, hw, exec_eq]

/-- Without a record and without an operation nothing happens. -/
theorem step_of_none {s : State} (hd : s.direct = none) (hi : s.inputs = []) : step s = .next (idle s) := by
  unfold step fetch
  simp only [hd, hi]

/-- Every step that answers a next state is one of the three. -/
theorem step_cases {s t : State} (h : step s = .next t) :
    (s.direct = none ∧ s.inputs = [] ∧ t = idle s) ∨
    (∃ r rest, s.direct = none ∧ s.inputs = r :: rest ∧
      t = finish (opOf (ctlInstr r.rst r.sym) { s with inputs := rest, now := r.now, out := OutRecord.blank })) ∨
    (∃ w i, s.direct = some w ∧ decode Config.hsm w = .ok i ∧
      t = finish (opOf i { s with direct := none, out := OutRecord.blank })) := by
  cases hd : s.direct with
  | none =>
    cases hi : s.inputs with
    | nil =>
      rw [step_of_none hd hi] at h
      exact Or.inl ⟨rfl, rfl, by injection h with h; exact h.symm⟩
    | cons r rest =>
      rw [step_of_record hd hi] at h
      exact Or.inr (Or.inl ⟨r, rest, rfl, rfl, by injection h with h; rw [hd] at h; exact h.symm⟩)
  | some w =>
    cases hw : decode Config.hsm w with
    | ok i =>
      rw [step_of_direct hd hw] at h
      exact Or.inr (Or.inr ⟨w, i, rfl, hw, by injection h with h; exact h.symm⟩)
    | error e =>
      unfold step fetch at h
      simp only [hd, hw] at h
      cases h

/-- No step ends in a fault: the type of faults is empty (R260). -/
theorem step_ne_fault (s : State) (r : Fault) : step s ≠ .fault r := by
  cases r

end Sys2Proof.Machine
end

