-- ==== Sys2Proof/Laws/Validator.lean ====
section
/-! SUPPORT. The highest-set-bit primitive and the division loop. -/

namespace Sys2Proof.Machine

/-- `msbFrom n v` is the highest set bit below n. -/
theorem msbFrom_eq_some_iff (n : Nat) (v : BitVec 64) (k : Nat) :
    msbFrom n v = some k ↔ k < n ∧ v.getLsbD k = true ∧ ∀ j, k < j → j < n → v.getLsbD j = false := by
  induction n with
  | zero => simp [msbFrom]
  | succ n ih =>
    unfold msbFrom
    split
    · rename_i h
      simp only [Option.some.injEq]
      constructor
      · rintro rfl
        exact ⟨by omega, h, by omega⟩
      · rintro ⟨hk, hv, hj⟩
        by_contra hne
        have := hj n (by omega) (by omega)
        simp [h] at this
    · rename_i h
      rw [ih]
      constructor
      · rintro ⟨hk, hv, hj⟩
        refine ⟨by omega, hv, fun j h1 h2 => ?_⟩
        by_cases hjn : j = n
        · subst hjn
          simpa using h
        · exact hj j h1 (by omega)
      · rintro ⟨hk, hv, hj⟩
        have hkn : k ≠ n := by
          rintro rfl
          exact h hv
        exact ⟨by omega, hv, fun j h1 h2 => hj j h1 (by omega)⟩

theorem msb_eq_some_iff (v : BitVec 64) (k : Nat) :
    msb v = some k ↔ v.getLsbD k = true ∧ ∀ j, k < j → v.getLsbD j = false := by
  rw [msb, msbFrom_eq_some_iff]
  constructor
  · rintro ⟨-, hv, hj⟩
    refine ⟨hv, fun j h => ?_⟩
    by_cases hlt : j < 64
    · exact hj j h hlt
    · exact BitVec.getLsbD_of_ge v j (by omega)
  · rintro ⟨hv, hj⟩
    exact ⟨BitVec.lt_of_getLsbD hv, hv, fun j h _ => hj j h⟩

theorem msb_zero : msb 0 = none := by decide

/-! The loop, one body at a time. -/

theorem divLoop_step {p div : BitVec 64} (h : p ≤ div) (fuel : Nat) (sum : BitVec 64) :
    divLoop p (fuel + 1) sum div = divLoop p fuel (divStep sum div) (div >>> 1) := by
  simp only [divLoop, if_pos h]

theorem divLoop_done {p div : BitVec 64} (h : ¬ p ≤ div) (fuel : Nat) (sum : BitVec 64) :
    divLoop p fuel sum div = sum := by
  cases fuel with
  | zero => rfl
  | succ n => simp only [divLoop, if_neg h]

theorem divCount_step {p div : BitVec 64} (h : p ≤ div) (fuel : Nat) :
    divCount p (fuel + 1) div = divCount p fuel (div >>> 1) + 1 := by
  simp only [divCount, if_pos h]

theorem divCount_done {p div : BitVec 64} (h : ¬ p ≤ div) (fuel : Nat) : divCount p fuel div = 0 := by
  cases fuel with
  | zero => rfl
  | succ n => simp only [divCount, if_neg h]

theorem divStep_zero (div : BitVec 64) : divStep 0 div = 0 := by
  simp [divStep]

theorem divStep_of_msb_ne {sum div : BitVec 64} (h : msb sum ≠ msb div) : divStep sum div = sum := by
  simp [divStep, h]

theorem divStep_of_msb_eq {sum div : BitVec 64} (h0 : sum ≠ 0) (h : msb sum = msb div) :
    divStep sum div = sum ^^^ div := by
  unfold divStep
  rw [if_pos ⟨h0, h⟩]

end Sys2Proof.Machine
end

