-- ==== Sys2Proof/Tests/Slice0.lean ====
section
/-! SUPPORT. Checks against the spec's own examples and vectors (the source of each is named), the ill-formed terms WellFormed
refuses, and for each statement with hypotheses a concrete state and operands that meet them all. -/

namespace Sys2Proof.Tests

open Sys2Proof.Machine

/-! Helpers. -/

/-- The reset state with records waiting. -/
def withInputs (rs : List InRecord) : State := { State.reset with inputs := rs }

/-- The reset state with an operation handed to its stage. -/
def withDirect (fmt : Format) (w : BitVec 64) : State := { State.reset with direct := some ⟨fmt, w⟩ }

/-- The state after one step (the state itself if it stops). -/
def stepped (s : State) : State :=
  match step s with
  | .next t => t
  | .fault _ => s
  | .refused _ => s

/-- The state after one operation (the state itself if it stops). -/
def ran (i : Instr) (s : State) : State :=
  match exec i s with
  | .next t => t
  | .fault _ => s
  | .refused _ => s

def decodesTo (fmt : Format) (w : BitVec 64) (i : Instr) : Bool :=
  match decode Config.hsm ⟨fmt, w⟩ with
  | .ok j => j == i
  | .error _ => false

def rejects (fmt : Format) (w : BitVec 64) (e : DecodeError) : Bool :=
  match decode Config.hsm ⟨fmt, w⟩ with
  | .ok _ => false
  | .error d => d == e

/-- A device entry of L2.5a row 2: baseline 0, no alarm, last seen at 110 with status 0. -/
def calmEntry : DevEntry := ⟨true, 0x00, 0x00, false, false, false, 110, 0⟩

/-! Ill-formed terms (R81, R92): one for each check of `Instr.wf`. -/

theorem test_symx_of_sample_0_is_ill_formed : (Instr.symx 0x00).wf Config.hsm = false := by decide
theorem test_symx_of_sample_1_is_ill_formed : (Instr.symx 0x01).wf Config.hsm = false := by decide
theorem test_frameAlt_without_sync_is_ill_formed : (Instr.frameAlt 0xFFFF200000000000).wf Config.hsm = false := by decide
theorem test_frameAlt_of_default_sof_is_ill_formed : (Instr.frameAlt 0xFFFE800000000000).wf Config.hsm = false := by decide
theorem test_frameDef_without_sync_is_ill_formed : (Instr.frameDef 0x7FFE800000000000).wf Config.hsm = false := by decide
theorem test_frameDef_of_alt_sof_is_ill_formed : (Instr.frameDef 0xFFFEA00000000000).wf Config.hsm = false := by decide
theorem test_hsm_parameters_are_well_formed : Config.hsm.wf = true := by decide

/-! Decoding, each word written out from the "encoding" column of opcode_table.json. -/

theorem test_decode_reset : decodesTo .ctl9 0b100000000 (.reset 0) = true := by decide
theorem test_decode_reset_ignores_sym : decodesTo .ctl9 0b100000001 (.reset 1) = true := by decide
theorem test_decode_sym0 : decodesTo .ctl9 0b000000000 .sym0 = true := by decide
theorem test_decode_sym1 : decodesTo .ctl9 0b000000001 .sym1 = true := by decide
theorem test_decode_symx_first : decodesTo .ctl9 0b000000010 (.symx 0x02) = true := by decide
theorem test_decode_symx_last : decodesTo .ctl9 0b011111111 (.symx 0xFF) = true := by decide
theorem test_decode_chip0 : decodesTo .chip1 0b0 .chip0 = true := by decide
theorem test_decode_chip1 : decodesTo .chip1 0b1 .chip1 = true := by decide
theorem test_decode_bit0 : decodesTo .bit1 0b0 .bit0 = true := by decide
theorem test_decode_bit1 : decodesTo .bit1 0b1 .bit1 = true := by decide
theorem test_decode_frameAlt_sof_2 :
    decodesTo .frame64 0b1111111111111110001011111111111111111111111111111101100000100000
      (.frameAlt 0xFFFE2FFFFFFFD820) = true := by decide
theorem test_decode_frameAlt_sof_a :
    decodesTo .frame64 0b1111111111111110101000001010101111001101010000000101100001010000
      (.frameAlt 0xFFFEA0ABCD405850) = true := by decide
theorem test_decode_frameDef :
    decodesTo .frame64 0b1111111111111110100000010010001101000101000000000000100010000101
      (.frameDef 0xFFFE812345000885) = true := by decide
theorem test_decode_update :
    decodesTo .upd28 0b0001001000110100010110000000 (.update 0x12345 0x80) = true := by decide
theorem test_decode_rejects_other_sync : rejects .frame64 0xFFFF800000000000 (.noRow .frame64) = true := by decide
theorem test_decode_rejects_wide_word : rejects .chip1 0b10 (.tooWide .chip1) = true := by decide
theorem test_table_word_symx : decodeTableWord 16 0x0FF = some (.symx 0xFF) := by decide
theorem test_table_word_update : decodeTableWord 32 0x1234580 = some (.update 0x12345 0x80) := by decide

/-- The frame fields of L1.3. -/
theorem test_frame_fields :
    syncOf 0xFFFE812345000885 = 0xFFFE ∧ sofOf 0xFFFE812345000885 = 0x8 ∧ serialOf 0xFFFE812345000885 = 0x12345 ∧
      statusOf 0xFFFE812345000885 = 0x00 ∧ checkOf 0xFFFE812345000885 = 0x0885 := by decide

/-! One step of each operation from a placed word, and the examples of the spec. -/

/-- L2.6: RESET from a used state. -/
theorem test_reset_clears :
    stepped { withInputs [rstRecord 9] with erRun := 7, fsShreg := 5, cntTotal := 3, dev := [(2, calmEntry)] }
      = State.reset := by decide

/-- R112's example, L2.1 row 9. -/
theorem test_sym0_emits_chip :
    (stepped { withInputs [sampleRecord false 0] with erRun := 3 }).erRun = 4 ∧
      (stepped { withInputs [sampleRecord false 0] with erRun := 3 }).out.chip = some false := by decide

/-- L2.1 row 5: the counter wraps, and a multiple of 8 emits nothing. -/
theorem test_sym0_wraps :
    (stepped { withInputs [sampleRecord false 0] with erRun := 0xFFFFFFFF }).erRun = 0 ∧
      (stepped { withInputs [sampleRecord false 0] with erRun := 0xFFFFFFFF }).out.chip = none := by decide

/-- R113's example, L2.1 row 10. -/
theorem test_sym1_edge_restarts :
    (stepped { withInputs [sampleRecord true 0] with erRun := 9 }).erRun = 1 ∧
      (stepped { withInputs [sampleRecord true 0] with erRun := 9 }).erPrev = true ∧
      (stepped { withInputs [sampleRecord true 0] with erRun := 9 }).out.chip = none := by decide

/-- L2.1 row 12: SYMX changes nothing but the record consumed. -/
theorem test_symx_changes_nothing :
    stepped { withInputs [invalidRecord 0x02 5] with erRun := 3 } = { State.reset with erRun := 3 } := by decide

/-- R131's example. -/
theorem test_chip0_in_highB :
    (ran .chip0 { State.reset with ldState := .highB }).ldState = .lowA ∧
      (ran .chip0 { State.reset with ldState := .highB }).out.bit = some true := by decide

/-- R132's example. -/
theorem test_chip1_in_lowB :
    (ran .chip1 { State.reset with ldState := .lowB }).ldState = .highA ∧
      (ran .chip1 { State.reset with ldState := .lowB }).out.bit = some false := by decide

/-- L2.3 row 1. -/
theorem test_bit0_shifts : (ran .bit0 { State.reset with fsShreg := 0x3 }).fsShreg = 0x6 := by decide

/-- L2.3 row 3: a zero payload creates device 0. -/
theorem test_bit0_completes_zero_payload :
    (ran .bit0 { State.reset with fsShreg := 0x7FFF000000000000 }).out.upd = some (0x00000, 0x00) ∧
      (ran .bit0 { State.reset with fsShreg := 0x7FFF000000000000 }).fsShreg = 0 := by decide +kernel

/-- L2.3 row 2. -/
theorem test_bit1_completes_a_frame :
    (ran .bit1 { State.reset with fsShreg := 0x7FFF40ABCDEF0123 }).out.frame = .bad 0xFFFE81579BDE0247 ∧
      (ran .bit1 { State.reset with fsShreg := 0x7FFF40ABCDEF0123 }).fsShreg = 0 := by decide +kernel

/-- L2.3 row 4. -/
theorem test_bit1_no_match :
    ran .bit1 { State.reset with fsShreg := 0xFFFFFFFFFFFFFFFF } = { State.reset with fsShreg := 0xFFFFFFFFFFFFFFFF } := by
  decide

/-- R181's example. -/
theorem test_frameAlt_valid :
    (stepped (withDirect .frame64 0xFFFEA0ABCD405850)).out.upd = some (0x0ABCD, 0x40) ∧
      (stepped (withDirect .frame64 0xFFFEA0ABCD405850)).cntInvalid = 0 := by decide +kernel

/-- L2.4: a check computed with 0x18005 under `sof` 0xA leaves 0xFFF3. -/
theorem test_frameAlt_wrong_polynomial :
    remainder (selectPoly Config.hsm 0xA) 0xFFFEA0ABCD40A7A3 = 0xFFF3 := by decide +kernel

/-- R180's example. -/
theorem test_frameDef_valid :
    (stepped (withDirect .frame64 0xFFFE812345000885)).out.ntf = some 0x091A28 ∧
      (stepped (withDirect .frame64 0xFFFE812345000885)).cntTotal = 1 := by decide +kernel

/-- The end of R187's trace. -/
theorem test_frameDef_trace :
    remainder (selectPoly Config.hsm 0x8) 0xFFFE800000000000 = 0x803F ∧
      divLoop 0x18005 2 0x800000000000 0xC00280000000 = 0x2003C0000000 := by decide +kernel

/-- L2.5a row 3: the alarm rises above the lowered baseline. -/
theorem test_update_raises_alarm :
    (ran (.update 0x00001 0x80) { State.reset with dev := [(1, calmEntry)], now := 120 }).dev
      = [(1, ⟨true, 0x80, 0x00, true, false, false, 120, 120⟩)] ∧
    (ran (.update 0x00001 0x80) { State.reset with dev := [(1, calmEntry)], now := 120 }).out.ntf = some 0x00000C := by
  decide

/-- L2.5a rows 7 and 8: 61 seconds notify, 60 do not. -/
theorem test_update_heartbeat_is_strict :
    (ran (.update 0x00001 0x00) { State.reset with dev := [(1, calmEntry)], now := 171 }).out.ntf = some 0x000008 ∧
      (ran (.update 0x00001 0x00) { State.reset with dev := [(1, calmEntry)], now := 170 }).out.ntf = none := by decide

/-- L1.5: the messages that do not name OPEN text. -/
theorem test_messages :
    alarmMessage true = "ALARM" ∧ statusMessage true true = "TAMPER LOWBATT" ∧ statusMessage false true = "LOWBATT" := by
  decide

/-- L2.2: `enc` of the bits 1, 0, 1. -/
theorem test_enc : encChips [true, false, true] = [true, true, false, false, true, false] := by decide

/-- A word placed by `withFetchWord` is the one the next step runs. -/
theorem test_withFetchWord_sample :
    stepped (State.reset.withFetchWord 16 0x001) = { State.reset with erPrev := true, erRun := 1 } := by decide

theorem test_withFetchWord_update :
    ((stepped (State.reset.withFetchWord 32 0x1234580)).dev.read 0x12345).lastRawState = 0x80 := by decide

/-! Witnesses: the hypotheses of each statement, met together. -/

/-- A valid and an invalid frame with the pattern (L2.4). -/
def goodFrame : Frame := 0xFFFE812345000885
def badFrame : Frame := 0xFFFE812305000885
def goodAlt : Frame := 0xFFFEA0ABCD405850

theorem goodFrame_valid : frameValid Config.hsm goodFrame = true := by decide +kernel
theorem goodAlt_valid : frameValid Config.hsm goodAlt = true := by decide +kernel
theorem badFrame_invalid : frameValid Config.hsm badFrame = false := by decide +kernel

/-- A state whose next sample completes a valid frame: the last sample but one of goodFrame's last bit. -/
def oneSampleBefore (now : Time) : State :=
  { withInputs [sampleRecord false now] with
    erRun := 3
    ldState := .highB
    fsShreg := 0x7FFF4091A2800442 }

theorem witness_oneSampleBefore_updates :
    (stepped (oneSampleBefore 7)).out.upd = some (0x12345, 0x00) ∧ (oneSampleBefore 7).direct = none := by decide +kernel

theorem witness_EveryOperationAndEveryRunCompletes : ∃ s : State, s.direct = none := ⟨State.reset, rfl⟩

theorem witness_StepRunsTheDecodedOperation_record :
    (oneSampleBefore 7).direct = none ∧ (oneSampleBefore 7).inputs = [sampleRecord false 7] ∧
      decodesTo .ctl9 ((ctlWord (sampleRecord false 7).rst (sampleRecord false 7).sym).setWidth 64) .sym0 = true := by
  decide

theorem witness_StepRunsTheDecodedOperation_direct :
    (withDirect .bit1 1).direct = some ⟨.bit1, 1⟩ ∧ decodesTo .bit1 1 .bit1 = true := by decide

theorem witness_StepWithoutInputKeepsEveryRegister : State.reset.direct = none ∧ State.reset.inputs = [] := by decide

theorem inv_reset : Inv Config.hsm State.reset :=
  ⟨by decide, by decide, fun _ => ⟨fun _ => rfl, fun h => absurd h (by simp [State.reset, DevEntry.empty])⟩⟩

theorem inv_withInputs (rs : List InRecord) : Inv Config.hsm (withInputs rs) :=
  ⟨inv_reset.canonical, inv_reset.noPendingMatch, inv_reset.entries⟩

theorem witness_StepKeepsTheInvariant :
    ∃ s t, Inv Config.hsm s ∧ step s = .next t :=
  ⟨withInputs [sampleRecord true 0], _, inv_withInputs _, step_of_record rfl rfl⟩

theorem witness_StagesWriteNoEarlierStage (s : State) :
    (isReset (.update 3 4) = false ∧ ∃ t, exec (.update 3 4) s = .next t) ∧
    (isReset (.frameDef 0) = false ∧ ∃ t, exec (.frameDef 0) s = .next t) ∧
    (isReset .bit0 = false ∧ ∃ t, exec .bit0 s = .next t) :=
  ⟨⟨rfl, _, rfl⟩, ⟨rfl, _, rfl⟩, ⟨rfl, _, rfl⟩⟩

theorem witness_OnlyTheTargetEntryIsStored :
    isReset .sym0 = false ∧ storeTarget Config.hsm .sym0 (oneSampleBefore 7) = some 0x12345 ∧
      storeTarget Config.hsm .sym0 (oneSampleBefore 7) ≠ some 0x00001 ∧ storeTarget Config.hsm .sym0 State.reset = none := by
  decide +kernel

theorem witness_EventsOfAStepAreCausal :
    (oneSampleBefore 7).direct = none ∧ (oneSampleBefore 7).inputs = [sampleRecord false 7] ∧
      (stepped (oneSampleBefore 7)).out.frame = .ok goodFrame ∧ (stepped (oneSampleBefore 7)).out.ntf = some 0x091A28 := by
  decide +kernel

theorem witness_EventsOfAStepAreCausal_reset : (withInputs [rstRecord 0]).direct = none ∧ (rstRecord 0).rst = true := by
  decide

theorem witness_CountersFollowTheFrameOutcome :
    (oneSampleBefore 7).direct = none ∧ (sampleRecord false 7).rst = false ∧
      (stepped (oneSampleBefore 7)).out.frame = .ok goodFrame ∧
      (stepped { oneSampleBefore 7 with fsShreg := 0x7FFF4091A2800443 }).out.frame = .bad 0xFFFE812345000887 ∧
      (stepped (withInputs [sampleRecord true 0])).out.frame = .none := by decide +kernel

theorem witness_DevicesChangeOnlyByValidFrames :
    (oneSampleBefore 7).direct = none ∧ (sampleRecord false 7).rst = false ∧
      (stepped (oneSampleBefore 7)).out.upd = some (0x12345, 0x00) ∧
      (stepped (withInputs [sampleRecord true 0])).out.upd = none := by decide +kernel

theorem witness_TimeIsSeenOnlyByUpdates :
    (oneSampleBefore 7).direct = none ∧ (oneSampleBefore 7).inputs = [sampleRecord false 7] ∧
      (stepped (oneSampleBefore 7)).out.upd = some (0x12345, 0x00) ∧
      (stepped (withInputs [sampleRecord true 0])).out.upd = none := by decide +kernel

theorem witness_DeviceTablesWithEqualEntriesAreEqual :
    Memory.wf [(1, calmEntry), (0xFFFFF, calmEntry)] = true ∧ Memory.wf [] = true := by decide

theorem witness_ResetRecordGivesTheResetState :
    (withInputs [⟨true, 0xFF, 4⟩]).direct = none ∧ (withInputs [⟨true, 0xFF, 4⟩]).inputs = [⟨true, 0xFF, 4⟩] := by decide

theorem witness_DecodeOfEncodeIsTheOperation :
    (Instr.symx 0x02).wf Config.hsm = true ∧ (Instr.frameAlt goodAlt).wf Config.hsm = true ∧
      (Instr.frameDef goodFrame).wf Config.hsm = true ∧ (Instr.update 0xFFFFF 0xFF).wf Config.hsm = true := by decide

theorem witness_EncodeOfDecodeIsTheWord : decodesTo .upd28 0xFFFFFFF (.update 0xFFFFF 0xFF) = true := by decide

theorem witness_NoControlWordIsReserved : (0x02 : BitVec 8) ≠ 0x00 ∧ (0x02 : BitVec 8) ≠ 0x01 := by decide

theorem witness_WordWithoutTheSyncPatternIsRefused :
    (withDirect .frame64 0xFFFF000000000000).direct = some ⟨.frame64, 0xFFFF000000000000⟩ ∧
      syncOf 0xFFFF000000000000 ≠ Config.hsm.syncPattern := by decide

theorem witness_SampleZeroCountsAndEmits :
    (nextRun false State.reset).toNat % 8 ≠ 4 ∧ (nextRun false { State.reset with erRun := 3 }).toNat % 8 = 4 ∧
      (nextRun false { State.reset with erPrev := true, erRun := 3 }).toNat % 8 ≠ 4 := by decide

theorem witness_SampleOneCountsAndEmits :
    (nextRun true State.reset).toNat % 8 ≠ 4 ∧
      (nextRun true { State.reset with erPrev := true, erRun := 3 }).toNat % 8 = 4 := by decide

theorem witness_InvalidSampleIsDropped :
    2 ≤ (0x02 : BitVec 8).toNat ∧ (withInputs [⟨false, 0xFF, 4⟩]).inputs = [⟨false, 0xFF, 4⟩] ∧
      State.reset.erPrev = false ∧ State.reset.erRun = 0 := by decide

theorem witness_InvalidSamplesAreInvisibleInAStream :
    (withInputs [sampleRecord true 0, invalidRecord 2 0, rstRecord 0]).direct = none ∧
      (withInputs [sampleRecord true 0, invalidRecord 2 0, rstRecord 0]).inputs.filter (fun r => !r.isInvalid)
        = [sampleRecord true 0, rstRecord 0] := by decide

theorem witness_RunEmitsOneChipPerPeriod :
    ({ State.reset with erRun := 9 }.erPrev ≠ true) ∧ State.reset.erRun = 0 := by decide

theorem witness_OnlyTheRunCountModuloEightIsVisible : (0xFFFFFFF8 : Count).toNat % 8 = State.reset.erRun.toNat % 8 := by
  decide

theorem witness_ChipFollowsTheTable :
    { State.reset with ldState := .lowA }.ldState = .lowA ∧ { State.reset with ldState := .lowB }.ldState = .lowB ∧
      { State.reset with ldState := .highA }.ldState = .highA ∧
      { State.reset with ldState := .highB }.ldState = .highB := by decide

theorem witness_BitIsEmittedExactlyInTheBStates :
    { State.reset with ldState := .lowB }.out.bit = none ∧ { State.reset with ldState := .lowB }.ldState = .lowB := by decide

theorem witness_ConsecutiveChipsNeverBothEmit :
    { State.reset with ldState := .lowB }.out.bit = none ∧
      ∃ t u, exec (chipInstr true) { State.reset with ldState := .lowB } = .next t ∧
        exec (chipInstr false) { t with out := OutRecord.blank } = .next u :=
  ⟨rfl, _, _, rfl, rfl⟩

theorem witness_EncodedBitsAreDecodedInOrder :
    [true, false, true].head? = some true ∧ State.reset.ldState = .lowA := by decide

theorem witness_BitShiftsInAndMatches :
    syncOf (shiftIn 0x7FFF000000000000 false) = Config.hsm.syncPattern ∧
      syncOf (shiftIn 0xFFFFFFFFFFFFFFFF true) ≠ Config.hsm.syncPattern := by decide

theorem witness_BitExamplesOfTheSpec :
    { State.reset with fsShreg := 0x3 }.fsShreg = 0x0000000000000003 ∧
      { State.reset with fsShreg := 0x7FFF40ABCDEF0123 }.fsShreg = 0x7FFF40ABCDEF0123 := by decide

theorem witness_CandidatesAreSixtyFourBitsApart :
    (List.replicate 63 true).length < 64 ∧ State.reset.fsShreg = 0 ∧ syncOf goodFrame = Config.hsm.syncPattern := by decide

theorem witness_FrameFieldsTileTheFrame :
    (syncOf goodAlt = Config.hsm.syncPattern ∧ sofOf goodAlt = 0xA) ∧
      (syncOf goodFrame = Config.hsm.syncPattern ∧ sofOf goodFrame ≠ 0x2 ∧ sofOf goodFrame ≠ 0xA) := by decide

theorem witness_ValidFrameUpdatesItsDevice :
    remainder (selectPoly Config.hsm (sofOf goodFrame)) goodFrame = 0 ∧
      remainder (selectPoly Config.hsm (sofOf goodAlt)) goodAlt = 0 := by decide +kernel

theorem witness_InvalidFrameIsCountedAndDiscarded :
    remainder (selectPoly Config.hsm (sofOf badFrame)) badFrame ≠ 0 := by decide +kernel

theorem witness_Division : Config.hsm.polyDef.getLsbD 16 = true ∧ Config.hsm.polyAlt.getLsbD 16 = true := by decide

theorem witness_ValidExactlyWhen : Config.hsm.wf = true := by decide

theorem witness_SingleBitErrorIsDetected :
    (47 < 48) ∧ frameValid Config.hsm goodFrame = true ∧
      isAltSof (sofOf (goodFrame ^^^ (1 <<< 47))) = isAltSof (sofOf goodFrame) := by decide +kernel

theorem witness_AlternateFrameNeedsAZeroLowNibble :
    isAltSof (sofOf (goodAlt ^^^ 1)) = true ∧ (goodAlt ^^^ 1).extractLsb' 0 4 ≠ 0 := by decide

theorem witness_UpdateLowersTheBaselineAndComparesTheAlarm :
    ((0xB0 : BitVec 8) &&& Config.hsm.alarmMask).toNat < (0xFF : BitVec 8).toNat ∧
      ¬ ((0x80 : BitVec 8) &&& Config.hsm.alarmMask).toNat < calmEntry.alarmBaseline.toNat := by decide

/-- The clauses of the decision at their boundary: a new device, a changed status, 61 seconds, and none of them at 60. -/
theorem witness_UpdateNotifiesOnChangeOrHeartbeat :
    State.reset.out.ntf = none ∧ (State.reset.dev.read 1).valid = false ∧
      (Memory.read [(1, calmEntry)] 1).valid = true ∧ (0x01 : Status) ≠ (Memory.read [(1, calmEntry)] 1).lastRawState ∧
      (0x00 : Status) = (Memory.read [(1, calmEntry)] 1).lastRawState ∧
      ((171 : Time).toNat : Int) - ((Memory.read [(1, calmEntry)] 1).lastUpdateTime.toNat : Int) > 60 ∧
      ¬ ((170 : Time).toNat : Int) - ((Memory.read [(1, calmEntry)] 1).lastUpdateTime.toNat : Int) > 60 := by
  decide

theorem witness_FirstSightingNotifiesWithoutAlarm : (State.reset.dev.read 0x12345).valid = false := by decide

theorem witness_RepeatedUpdateIsThrottled :
    ∃ t u : State, exec (.update 1 0x80) State.reset = .next t ∧ u.dev.read 1 = t.dev.read 1 ∧ u.out.ntf = none :=
  ⟨_, { (opUpdate Config.hsm 1 0x80 State.reset) with out := OutRecord.blank }, rfl, rfl, rfl⟩

theorem witness_HysteresisIsNumeric : (State.reset.dev.read 0x00002).valid = false := by decide

theorem witness_BaselineNeverRisesExceptByReset :
    ∃ s r rest, Inv Config.hsm s ∧ s.direct = none ∧ s.inputs = r :: rest ∧ r.rst = false :=
  ⟨withInputs [sampleRecord true 0], _, _, inv_withInputs _, rfl, rfl, rfl⟩

theorem witness_KnownDevicesLiveUntilReset :
    isReset (.update 2 0x00) = false ∧ (Memory.read [(1, calmEntry)] 1).valid = true ∧
      ∃ t, exec (.update 2 0x00) { State.reset with dev := [(1, calmEntry)] } = .next t :=
  ⟨by decide, by decide, _, rfl⟩

theorem witness_OutputPortsHaveNoneValues :
    (OutRecord.blank.chip = none ∧ OutRecord.blank.frame = .none) ∧
      (stepped (oneSampleBefore 7)).out.frame = .ok goodFrame ∧ (stepped (oneSampleBefore 7)).out.bit = some true := by
  decide +kernel

theorem witness_FrameStreamIsDecoded :
    syncOf goodFrame = Config.hsm.syncPattern ∧ State.reset.direct = none ∧ State.reset.ldState = .lowA ∧
      State.reset.fsShreg = 0 ∧ State.reset.erPrev = false ∧
      (withInputs (frameRecords Config.hsm goodFrame 7 ++ [])).inputs = frameRecords Config.hsm goodFrame 7 ++ [] :=
  ⟨by decide, rfl, rfl, rfl, rfl, rfl⟩

/-- The boundary values of the register: 0b00 and 0b11. -/
theorem witness_LineDecoderRunsOnItsCodedRegister :
    (State.reset.ldReg = 0b00 ∧ State.reset.out.bit = none) ∧
      (State.reset.setLd .highB).ldReg = 0b11 ∧ (State.reset.setLd .highB).out.bit = none := by decide

/-- The codes of 92_eei_decisions.md D16. -/
theorem test_ld_state_code :
    [LdState.lowA, LdState.lowB, LdState.highA, LdState.highB].map LdState.code = [0b00, 0b01, 0b10, 0b11] := by decide

end Sys2Proof.Tests
end

section
/-! The control words (R92, R93) and the fields of a frame (R86). -/

namespace Sys2Proof.Encoding

open Sys2Proof Sys2Proof.Machine

/-! The control words. -/

/-- A sample outside {0, 1} is an invalid one (R81). -/
theorem ctlInstr_of_ne {sym : BitVec 8} (h0 : sym ≠ 0x00) (h1 : sym ≠ 0x01) : ctlInstr false sym = .symx sym := by
  rcases ctlInstr_cases false sym with ⟨h, -⟩ | ⟨-, ⟨h, -⟩ | ⟨h, -⟩ | ⟨-, h⟩⟩
  · exact absurd h Bool.false_ne_true
  · exact absurd h h0
  · exact absurd h h1
  · exact h

/-- The three frame outcomes use the codes 0b00, 0b01 and 0b10 (R89). -/
theorem frameOutcome_code_ne_three (o : FrameOutcome) : o.code ≠ 0b11 := by
  cases o <;> simp [FrameOutcome.code]

/-- Settles O18: every control word decodes to the operation `ctlInstr` names, and SYMX leaves the state as it is. -/
theorem noControlWordIsReserved : Obligations.NoControlWordIsReserved := by
  unfold Obligations.NoControlWordIsReserved
  refine ⟨fun c sym => decode_ctl c true sym, fun c => decode_ctl c false 0, fun c => decode_ctl c false 1,
    fun c sym h0 h1 => ?symx, fun sym s => exec_eq (.symx sym) s, fun o => frameOutcome_code_ne_three o.frame⟩
  case symx => rw [decode_ctl, ctlInstr_of_ne h0 h1]

/-! The fields of a frame. -/

/-- The 44 low bits of a frame are its serial, its status and its check field (R86). -/
theorem low44_split (f : Frame) : f.extractLsb' 0 44 = serialOf f ++ (statusOf f ++ checkOf f) := by
  rw [statusOf, checkOf, BitVec.extractLsb'_append_extractLsb'_eq_extractLsb' (by decide), serialOf,
    BitVec.extractLsb'_append_extractLsb'_eq_extractLsb' (by decide)]

/-- `ALT_SOF` holds 0x2 and 0xA (R14). -/
theorem isAltSof_iff_eq (sof : BitVec 4) : isAltSof sof = true ↔ sof = 0x2 ∨ sof = 0xA := by
  simp [isAltSof, Config.altSof]

/-- Settles O35: the split of a frame at bit 44 and that of its low part tile it, and the decoder selects by `isAltSof`. -/
theorem frameFieldsTileTheFrame : Obligations.FrameFieldsTileTheFrame := by
  unfold Obligations.FrameFieldsTileTheFrame
  refine fun f => ⟨?tile, fun c hsync halt => ?alt, fun c hsync h2 hA => ?dflt⟩
  case tile => rw [← low44_split]; exact frame_split f
  case alt => rw [decode_frame c f hsync, if_pos ((isAltSof_iff_eq _).2 halt)]
  case dflt => rw [decode_frame c f hsync, if_neg (mt (isAltSof_iff_eq _).1 (not_or.2 ⟨h2, hA⟩))]

end Sys2Proof.Encoding
end

section
/-! The Line Decoder's table: CHIP0 (R131) and CHIP1 (R132). -/

namespace Sys2Proof.LineDecoder

open Sys2Proof Sys2Proof.Machine

/-- The CHIP1 format's word of a chip (R84, R92). -/
theorem decode_chip (c : Config) (v : Bool) : decode c ⟨.chip1, if v then 1 else 0⟩ = .ok (chipInstr v) := by
  cases v <;> rfl

theorem exec_chipInstr (v : Bool) (s : State) : exec (chipInstr v) s = .next (callChip Config.hsm v s) := by
  cases v <;> exact exec_eq _ s

theorem exec_bitInstr (b : Bool) (s : State) : exec (bitInstr b) s = .next (fsBit Config.hsm b s) := by
  cases b <;> exact exec_eq _ s

theorem with_ldState_self {s : State} {l : LdState} (h : s.ldState = l) : { s with ldState := l } = s := by
  subst h
  rfl

theorem exec_chipInstr_of_callChip_eq {v : Bool} {s t : State} (hc : callChip Config.hsm v s = t) :
    exec (chipInstr v) s = .next t := by
  rw [exec_chipInstr, hc]

/-- A chip that keeps the decoder's state and emits nothing changes nothing. -/
theorem exec_chipInstr_of_idle {v : Bool} {s : State} {l : LdState} (h : s.ldState = l)
    (hc : callChip Config.hsm v s = { s with ldState := l }) : exec (chipInstr v) s = .next s :=
  exec_chipInstr_of_callChip_eq (hc.trans (with_ldState_self h))

/-- A chip that emits gives what its bit gives FS in the state u that already shows the bit and the new decoder state;
FS keeps both. -/
theorem exec_chipInstr_of_emit {v b : Bool} {s u : State} (hc : callChip Config.hsm v s = fsBit Config.hsm b u) :
    ∃ t, exec (chipInstr v) s = .next t ∧ exec (bitInstr b) u = .next t ∧
      t.ldState = u.ldState ∧ t.out.bit = u.out.bit := by
  obtain ⟨-, -, hld, -, hbit⟩ := fsBit_keeps Config.hsm b u
  exact ⟨_, exec_chipInstr_of_callChip_eq hc, exec_bitInstr b u, hld, hbit⟩

/-- Settles O27: each row of the table's `input=0` column idles, moves, or emits. -/
theorem chipZeroFollowsTheTable : Obligations.ChipZeroFollowsTheTable := by
  unfold Obligations.ChipZeroFollowsTheTable
  refine ⟨decode_chip Config.hsm false, fun s => ⟨fun h => ?lowA, fun h => ?lowB, fun h => ?highA, fun h => ?highB⟩⟩
  case lowA => exact exec_chipInstr_of_idle h (callChip_of_lowA false h)
  case lowB => exact exec_chipInstr_of_emit (callChip_of_lowB false h)
  case highA => exact exec_chipInstr_of_callChip_eq (callChip_of_highA false h)
  case highB => exact exec_chipInstr_of_emit (callChip_of_highB false h)

/-- Settles O28: each row of the table's `input=1` column idles, moves, or emits. -/
theorem chipOneFollowsTheTable : Obligations.ChipOneFollowsTheTable := by
  unfold Obligations.ChipOneFollowsTheTable
  refine ⟨decode_chip Config.hsm true, fun s => ⟨fun h => ?lowA, fun h => ?lowB, fun h => ?highA, fun h => ?highB⟩⟩
  case lowA => exact exec_chipInstr_of_callChip_eq (callChip_of_lowA true h)
  case lowB => exact exec_chipInstr_of_emit (callChip_of_lowB true h)
  case highA => exact exec_chipInstr_of_idle h (callChip_of_highA true h)
  case highB => exact exec_chipInstr_of_emit (callChip_of_highB true h)

end Sys2Proof.LineDecoder
end

section
/-! The Frame Validator: the polynomial a frame selects (R172) and the verdict on it (R176 to R179). -/

namespace Sys2Proof.FrameValidator

open Sys2Proof Sys2Proof.Machine

/-- The selected polynomial, by the two members of `ALT_SOF` (R14, R172). -/
theorem selectPoly_eq_ite (c : Config) (sof : BitVec 4) :
    selectPoly c sof = if sof = 0x2 ∨ sof = 0xA then c.polyAlt else c.polyDef :=
  if_congr (Encoding.isAltSof_iff_eq sof) rfl rfl

/-- Settles O36: the two values are the members of `ALT_SOF`, and the polynomials are those of `Config.hsm`. -/
theorem startNibbleSelectsThePolynomial : Obligations.StartNibbleSelectsThePolynomial := by
  unfold Obligations.StartNibbleSelectsThePolynomial
  exact fun sof => selectPoly_eq_ite Config.hsm sof

theorem frameValid_eq_false_iff (c : Config) (f : Frame) :
    frameValid c f = false ↔ remainder (selectPoly c (sofOf f)) f ≠ 0 :=
  beq_eq_false_iff_ne

/-- Both FRAME operations run `FV_FRAME` (R180, R181; log entry 12). -/
theorem exec_frame {i : Instr} {f : Frame} (h : i = .frameAlt f ∨ i = .frameDef f) (s : State) :
    exec i s = .next (fvFrame Config.hsm f s) := by
  obtain rfl | rfl := h
  · exact exec_eq (.frameAlt f) s
  · exact exec_eq (.frameDef f) s

/-- Settles O38: both operations run `FV_FRAME`, whose invalid case writes the counters and the outcome only. -/
theorem invalidFrameIsCountedAndDiscarded : Obligations.InvalidFrameIsCountedAndDiscarded := by
  unfold Obligations.InvalidFrameIsCountedAndDiscarded
  intro f i s hi hrem
  have hinvalid := (frameValid_eq_false_iff Config.hsm f).2 hrem
  rw [exec_frame hi, fvFrame_of_invalid hinvalid]

end Sys2Proof.FrameValidator
end

section
/-! The Device State Tracker: the entry UPDATE stores (R201 to R204, R209), and what the other operations do to the
device table (R215). -/

namespace Sys2Proof.DeviceTracker

open Sys2Proof Sys2Proof.Machine

/-! The device table after UPDATE. -/

theorem opUpdate_dev (c : Config) (a : Serial) (st : Status) (s : State) :
    (opUpdate c a st s).dev = s.dev.write a (trackEntry c st s.now (sighted (s.dev.read a))) := by
  rw [opUpdate_eq]

@[simp] theorem opUpdate_read_same (c : Config) (a : Serial) (st : Status) (s : State) :
    (opUpdate c a st s).dev.read a = trackEntry c st s.now (sighted (s.dev.read a)) := by
  rw [opUpdate_dev, Memory.read_write_same]

theorem opUpdate_read_other (c : Config) {a b : Serial} (st : Status) (s : State) (h : b ≠ a) :
    (opUpdate c a st s).dev.read b = s.dev.read b := by
  rw [opUpdate_dev, Memory.read_write_other _ _ h]

/-- Settles O48: the tracked entry carries the status and the time, and a write keeps every other serial. -/
theorem updatePersistsStatusAndTime : Obligations.UpdatePersistsStatusAndTime := by
  unfold Obligations.UpdatePersistsStatusAndTime
  intro a st s
  refine ⟨_, exec_eq (.update a st) s, ?status, ?time, fun b hb => opUpdate_read_other Config.hsm st s hb⟩
  case status => exact congrArg DevEntry.lastRawState (opUpdate_read_same Config.hsm a st s)
  case time => exact congrArg DevEntry.lastUpdateTime (opUpdate_read_same Config.hsm a st s)

/-! The baseline (R203) and the alarm (R204). -/

theorem lowerBaseline_of_lt {ab b : Status} (h : ab.toNat < b.toNat) : lowerBaseline ab b = ab :=
  if_pos (BitVec.lt_def.2 h)

theorem lowerBaseline_of_not_lt {ab b : Status} (h : ¬ ab.toNat < b.toNat) : lowerBaseline ab b = b :=
  if_neg (mt BitVec.lt_def.1 h)

/-- An unsighted device starts from `BASELINE_UNSEEN` (R18, R201). -/
theorem sighted_alarmBaseline (e : DevEntry) :
    (sighted e).alarmBaseline = if e.valid then e.alarmBaseline else 0xFF := by
  cases h : e.valid
  · rw [sighted_of_unseen h]; rfl
  · rw [sighted_of_valid h]; rfl

/-- Settles O47: the stored baseline is `lowerBaseline` of the alarm bits and the old baseline, and the stored alarm is
`alarmFlag` on that lowered baseline. -/
theorem updateLowersTheBaselineAndComparesTheAlarm :
    Obligations.UpdateLowersTheBaselineAndComparesTheAlarm := by
  unfold Obligations.UpdateLowersTheBaselineAndComparesTheAlarm
  intro a st s old ab
  have hbase : ((opUpdate Config.hsm a st s).dev.read a).alarmBaseline = lowerBaseline ab old := by
    rw [opUpdate_read_same, trackEntry_alarmBaseline, sighted_alarmBaseline]; rfl
  have halarm : ((opUpdate Config.hsm a st s).dev.read a).alarm = alarmFlag ab (lowerBaseline ab old) := by
    rw [← hbase, opUpdate_read_same]; rfl
  refine ⟨opUpdate Config.hsm a st s, exec_eq (.update a st) s, ?_⟩
  rw [hbase, halarm]
  exact ⟨lowerBaseline_of_lt, lowerBaseline_of_not_lt, BitVec.le_def.1 (lowerBaseline_le_baseline ab old),
    alarmFlag_eq_true_iff ab _⟩

/-! What an operation does to the device table. -/

/-- The device table of t is that of s, or that of s after one UPDATE at the same time. -/
def AtMostOneUpdate (c : Config) (s t : State) : Prop :=
  t.dev = s.dev ∨ ∃ a st, t.dev = (opUpdate c a st s).dev

/-- Only the table and the time input of the earlier state matter. -/
theorem AtMostOneUpdate.of_same {c : Config} {s s' t : State} (h : AtMostOneUpdate c s' t)
    (hdev : s'.dev = s.dev) (hnow : s'.now = s.now) : AtMostOneUpdate c s t := by
  obtain h | ⟨a, st, h⟩ := h
  · exact Or.inl (h.trans hdev)
  · refine Or.inr ⟨a, st, ?_⟩
    rw [h, opUpdate_dev, opUpdate_dev, hdev, hnow]

theorem opUpdate_atMostOneUpdate (c : Config) (a : Serial) (st : Status) (s : State) :
    AtMostOneUpdate c s (opUpdate c a st s) := Or.inr ⟨a, st, rfl⟩

theorem fvFrame_atMostOneUpdate (c : Config) (f : Frame) (s : State) : AtMostOneUpdate c s (fvFrame c f s) := by
  cases h : frameValid c f
  · rw [fvFrame_of_invalid h]
    exact Or.inl rfl
  · rw [fvFrame_of_valid h]
    exact (opUpdate_atMostOneUpdate c _ _ _).of_same rfl rfl

theorem fsBit_atMostOneUpdate (c : Config) (b : Bool) (s : State) : AtMostOneUpdate c s (fsBit c b s) := by
  by_cases h : syncOf (shiftIn s.fsShreg b) = c.syncPattern
  · rw [fsBit_of_match h]
    exact (fvFrame_atMostOneUpdate c _ _).of_same rfl rfl
  · rw [fsBit_of_no_match h]
    exact Or.inl rfl

theorem callChip_atMostOneUpdate (c : Config) (v : Bool) (s : State) : AtMostOneUpdate c s (callChip c v s) := by
  obtain ⟨l, h⟩ | ⟨l, b, h⟩ := callChip_cases c v s <;> rw [h]
  · exact Or.inl rfl
  · exact (fsBit_atMostOneUpdate c b _).of_same rfl rfl

theorem erSample_atMostOneUpdate (c : Config) (v : Bool) (s : State) : AtMostOneUpdate c s (erSample c v s) := by
  cases h : midChip c (nextRun v s)
  · rw [erSample_of_no_chip h]
    exact Or.inl rfl
  · rw [erSample_of_chip h]
    exact (callChip_atMostOneUpdate c v _).of_same rfl rfl

/-- Every operation but RESET changes the device table by one UPDATE, or not at all. -/
theorem opOf_atMostOneUpdate {i : Instr} (hi : isReset i = false) (s : State) :
    AtMostOneUpdate Config.hsm s (opOf i s) := by
  cases i with
  | reset sym => cases hi
  | sym0 => exact erSample_atMostOneUpdate Config.hsm false s
  | sym1 => exact erSample_atMostOneUpdate Config.hsm true s
  | symx sym => exact Or.inl rfl
  | chip0 => exact callChip_atMostOneUpdate Config.hsm false s
  | chip1 => exact callChip_atMostOneUpdate Config.hsm true s
  | bit0 => exact fsBit_atMostOneUpdate Config.hsm false s
  | bit1 => exact fsBit_atMostOneUpdate Config.hsm true s
  | frameAlt f => exact fvFrame_atMostOneUpdate Config.hsm f s
  | frameDef f => exact fvFrame_atMostOneUpdate Config.hsm f s
  | update a st => exact opUpdate_atMostOneUpdate Config.hsm a st s

/-! The life of an entry (R215). -/

theorem opUpdate_valid_same (c : Config) (a : Serial) (st : Status) (s : State) :
    ((opUpdate c a st s).dev.read a).valid = true := by
  rw [opUpdate_read_same, trackEntry_valid, sighted_valid]

theorem AtMostOneUpdate.valid {c : Config} {s t : State} (h : AtMostOneUpdate c s t) {a : Serial}
    (ha : (s.dev.read a).valid = true) : (t.dev.read a).valid = true := by
  obtain h | ⟨b, st, h⟩ := h <;> rw [h]
  · exact ha
  · by_cases hab : a = b
    · subst hab
      exact opUpdate_valid_same c a st s
    · rw [opUpdate_read_other c st s hab]
      exact ha

theorem opReset_valid (s : State) (a : Serial) : ((opReset s).dev.read a).valid = false := rfl

/-- Settles O55: an operation but RESET makes at most one UPDATE, which sets `valid` in its own entry and keeps the
others; RESET empties the table. -/
theorem knownDevicesLiveUntilReset : Obligations.KnownDevicesLiveUntilReset := by
  unfold Obligations.KnownDevicesLiveUntilReset
  refine ⟨fun i s t hi hexec a ha => ?keeps, fun a st s => ?update, fun sym s => ?reset⟩
  case keeps =>
    obtain rfl : opOf i s = t := Host.Outcome.next.inj ((exec_eq i s).symm.trans hexec)
    exact (opOf_atMostOneUpdate hi s).valid ha
  case update =>
    exact ⟨_, exec_eq (.update a st) s, opUpdate_valid_same Config.hsm a st s,
      fun b hb => opUpdate_read_other Config.hsm st s hb⟩
  case reset => exact ⟨_, exec_eq (.reset sym) s, opReset_valid s⟩

end Sys2Proof.DeviceTracker
end

section
/-! Completion: no operation and no run of input records stops (R260). -/

namespace Sys2Proof.Completion

open Sys2Proof Sys2Proof.Machine

/-- No operation writes the waiting records, the place of a handed operation, or the time input (R30, R48; log entries 2
to 4). -/
theorem opOf_sameHost (i : Instr) (s : State) : SameHost s (opOf i s) := by
  cases i with
  | reset sym => exact ⟨rfl, rfl, rfl⟩
  | sym0 => exact (erSample_keeps Config.hsm false s).1
  | sym1 => exact (erSample_keeps Config.hsm true s).1
  | symx sym => exact ⟨rfl, rfl, rfl⟩
  | chip0 => exact (callChip_keeps Config.hsm false s).1
  | chip1 => exact (callChip_keeps Config.hsm true s).1
  | bit0 => exact (fsBit_keeps Config.hsm false s).1
  | bit1 => exact (fsBit_keeps Config.hsm true s).1
  | frameAlt f => exact (fvFrame_keeps Config.hsm f s).1
  | frameDef f => exact (fvFrame_keeps Config.hsm f s).1
  | update a st => rw [opOf, opUpdate_eq]; exact ⟨rfl, rfl, rfl⟩

/-- With no operation handed to a stage a step cannot stop: every control word of a record decodes (R93), and without a
record the step is idle (R274). It leaves no operation handed either. -/
theorem step_completes {s : State} (hd : s.direct = none) : ∃ t, step s = .next t ∧ t.direct = none := by
  cases hi : s.inputs with
  | nil => exact ⟨_, step_of_none hd hi, (State.idle_direct s).trans hd⟩
  | cons r rest =>
    refine ⟨_, step_of_record hd hi, ?_⟩
    rw [State.finish_direct, (opOf_sameHost _ _).direct]
    exact hd

theorem run_succ_of_step {M : Host.Core} {s t : M.State} (h : M.step s = .next t) (n : Nat) :
    M.run (n + 1) s = M.run n t := by
  rw [Host.Core.run, h]

/-- A run of any length completes when no operation is handed to a stage. -/
theorem run_completes (n : Nat) {s : State} (hd : s.direct = none) :
    ∃ t, Host.Core.run core n s = .next t ∧ t.direct = none := by
  induction n generalizing s with
  | zero => exact ⟨s, rfl, hd⟩
  | succ n ih =>
    obtain ⟨u, hstep, hu⟩ := step_completes hd
    obtain ⟨t, hrun, ht⟩ := ih hu
    exact ⟨t, (run_succ_of_step (M := core) hstep n).trans hrun, ht⟩

/-- Settles O1: `exec` answers the state `opOf`, there is no fault to end in, and a run is completed step by step. -/
theorem everyOperationAndEveryRunCompletes : Obligations.EveryOperationAndEveryRunCompletes := by
  unfold Obligations.EveryOperationAndEveryRunCompletes
  exact ⟨fun i s => ⟨opOf i s, exec_eq i s⟩, step_ne_fault, fun n _ hd => run_completes n hd⟩

end Sys2Proof.Completion
end

section
/-! The operation map in both directions (R92): decode of encode is the operation, encode of decode is the word. -/

namespace Sys2Proof.Encoding

open Sys2Proof Sys2Proof.Machine

/-! Decode of encode. -/

theorem extractLsb'_append_serial (a : Serial) (st : Status) :
    ((a ++ st).setWidth 64).extractLsb' 8 20 = a ∧ ((a ++ st).setWidth 64).extractLsb' 0 8 = st := by
  constructor
  · apply BitVec.eq_of_getLsbD_eq
    intro i hi
    simp only [BitVec.getLsbD_extractLsb', BitVec.getLsbD_setWidth, BitVec.getLsbD_append]
    simp [hi, show 8 + i < 64 by omega]
  · apply BitVec.eq_of_getLsbD_eq
    intro i hi
    simp only [BitVec.getLsbD_extractLsb', BitVec.getLsbD_setWidth, BitVec.getLsbD_append]
    simp [hi, show i < 64 by omega]

/-- The word of UPDATE holds its serial over its status (R88). -/
theorem decode_encode_update (c : Config) (a : Serial) (st : Status) :
    decode c (encode (.update a st)) = .ok (.update a st) := by
  obtain ⟨hserial, hstatus⟩ := extractLsb'_append_serial a st
  have hdecode := decode_upd c ((a ++ st).setWidth 64) (Laws.EncodeFits.update a st)
  rwa [hserial, hstatus] at hdecode

/-- Settles O16: each row's word selects its own row, by the decoder's lemma for the row's format. -/
theorem decodeOfEncodeIsTheOperation : Obligations.DecodeOfEncodeIsTheOperation := by
  unfold Obligations.DecodeOfEncodeIsTheOperation
  intro c i hwf
  cases i with
  | reset sym => exact decode_ctl c true sym
  | sym0 => exact decode_ctl c false 0
  | sym1 => exact decode_ctl c false 1
  | symx sym => rw [encode, decode_ctl, ctlInstr_of_invalid (of_decide_eq_true hwf)]
  | chip0 => rfl
  | chip1 => rfl
  | bit0 => rfl
  | bit1 => rfl
  | frameAlt f =>
    obtain ⟨hsync, halt⟩ : syncOf f = c.syncPattern ∧ isAltSof (sofOf f) = true := by simpa [Instr.wf] using hwf
    rw [encode, decode_frame c f hsync, if_pos halt]
  | frameDef f =>
    obtain ⟨hsync, hdef⟩ : syncOf f = c.syncPattern ∧ isAltSof (sofOf f) = false := by simpa [Instr.wf] using hwf
    rw [encode, decode_frame c f hsync, hdef, if_neg Bool.false_ne_true]
  | update a st => exact decode_encode_update c a st

/-! Encode of decode. -/

/-- i is the operation of w in both directions: its word is w, and it is well formed. -/
def Names (c : Config) (w : OpWord) (i : Instr) : Prop := encode i = w ∧ i.wf c = true

/-- A word that decodes has no bit above its format's width. -/
theorem fits_of_decode {c : Config} {w : OpWord} {i : Instr} (h : decode c w = .ok i) :
    w.bits.toNat < 2 ^ w.fmt.width := by
  by_contra hwide
  rw [decode, if_pos (Nat.le_of_not_lt hwide)] at h
  cases h

theorem ctlInstr_names (c : Config) (rst : Bool) (sym : BitVec 8) :
    Names c ⟨.ctl9, (ctlWord rst sym).setWidth 64⟩ (ctlInstr rst sym) := by
  obtain ⟨rfl, h⟩ | ⟨rfl, ⟨rfl, h⟩ | ⟨rfl, h⟩ | ⟨hsym, h⟩⟩ := ctlInstr_cases rst sym <;> rw [h]
  · exact ⟨rfl, rfl⟩
  · exact ⟨rfl, rfl⟩
  · exact ⟨rfl, rfl⟩
  · exact ⟨rfl, decide_eq_true hsym⟩

/-- Nine bits are a control word (R80). -/
theorem ctlWord_split (v : BitVec 9) : ctlWord (v.getLsbD 8) (v.setWidth 8) = v := by
  revert v
  decide

theorem names_of_decode_ctl9 {c : Config} {w : BitVec 64} {i : Instr} (hw : w.toNat < 2 ^ 9)
    (h : decode c ⟨.ctl9, w⟩ = .ok i) : Names c ⟨.ctl9, w⟩ i := by
  have hctl : w = (ctlWord ((w.setWidth 9).getLsbD 8) ((w.setWidth 9).setWidth 8)).setWidth 64 := by
    rw [ctlWord_split]
    apply BitVec.eq_of_toNat_eq
    simp only [BitVec.toNat_setWidth]
    omega
  rw [hctl] at h ⊢
  obtain rfl := Except.ok.inj ((decode_ctl c _ _).symm.trans h)
  exact ctlInstr_names c _ _

theorem eq_zero_or_one_of_toNat_lt_two {w : BitVec 64} (h : w.toNat < 2) : w = 0 ∨ w = 1 := by
  have hcases : w.toNat = 0 ∨ w.toNat = 1 := by omega
  exact hcases.imp BitVec.eq_of_toNat_eq BitVec.eq_of_toNat_eq

/-- A FRAME64 word that decodes carries the pattern, and its `sof` selects its row (R92). -/
theorem names_of_decode_frame64 {c : Config} {f : Frame} {i : Instr} (h : decode c ⟨.frame64, f⟩ = .ok i) :
    Names c ⟨.frame64, f⟩ i := by
  by_cases hsync : syncOf f = c.syncPattern
  · rw [decode_frame c f hsync] at h
    obtain rfl := Except.ok.inj h
    cases halt : isAltSof (sofOf f) <;> exact ⟨rfl, by simp [Instr.wf, hsync, halt]⟩
  · rw [decode_frame_reject c f hsync] at h
    cases h

theorem append_serial_extractLsb' {w : BitVec 64} (h : w.toNat < 2 ^ 28) :
    (w.extractLsb' 8 20 ++ w.extractLsb' 0 8).setWidth 64 = w := by
  rw [BitVec.extractLsb'_append_extractLsb'_eq_extractLsb' (by decide)]
  apply BitVec.eq_of_toNat_eq
  simp only [BitVec.toNat_setWidth, BitVec.extractLsb'_toNat, Nat.shiftRight_zero]
  omega

theorem names_of_decode_upd28 {c : Config} {w : BitVec 64} {i : Instr} (hw : w.toNat < 2 ^ 28)
    (h : decode c ⟨.upd28, w⟩ = .ok i) : Names c ⟨.upd28, w⟩ i := by
  obtain rfl := Except.ok.inj ((decode_upd c w hw).symm.trans h)
  exact ⟨congrArg (OpWord.mk .upd28) (append_serial_extractLsb' hw), rfl⟩

/-- Settles O17: format by format, the words that fit and decode are those of the format's rows. -/
theorem encodeOfDecodeIsTheWord : Obligations.EncodeOfDecodeIsTheWord := by
  unfold Obligations.EncodeOfDecodeIsTheWord
  rintro c ⟨fmt, w⟩ i h
  have hw := fits_of_decode h
  cases fmt with
  | ctl9 => exact names_of_decode_ctl9 hw h
  | chip1 =>
    obtain rfl | rfl := eq_zero_or_one_of_toNat_lt_two hw <;> obtain rfl := Except.ok.inj h <;> exact ⟨rfl, rfl⟩
  | bit1 =>
    obtain rfl | rfl := eq_zero_or_one_of_toNat_lt_two hw <;> obtain rfl := Except.ok.inj h <;> exact ⟨rfl, rfl⟩
  | frame64 => exact names_of_decode_frame64 h
  | upd28 => exact names_of_decode_upd28 hw h

/-! Words of the table. -/

/-- Settles O19: each written word is the word of its row's operation, which decodes to that operation. -/
theorem tableWordsDecodeToTheirRows : Obligations.TableWordsDecodeToTheirRows := by
  unfold Obligations.TableWordsDecodeToTheirRows
  have row : ∀ i : Instr, i.wf Config.hsm = true → decode Config.hsm (encode i) = .ok i :=
    decodeOfEncodeIsTheOperation Config.hsm
  exact ⟨row (.reset 0b01010101) rfl, row .sym0 rfl, row .sym1 rfl, row (.symx 0b10000010) rfl, row .chip0 rfl,
    row .chip1 rfl, row .bit0 rfl, row .bit1 rfl, row (.update 0b00001010101111001101 0b01000000) rfl,
    row (.frameAlt 0xFFFEA0ABCD405850) rfl, row (.frameDef 0xFFFE812345000885) rfl⟩

/-- Settles O20: the decoder has no row for the word, and `step` refuses what does not decode. -/
theorem wordWithoutTheSyncPatternIsRefused : Obligations.WordWithoutTheSyncPatternIsRefused := by
  unfold Obligations.WordWithoutTheSyncPatternIsRefused
  intro s f hdirect hsync
  have hreject := decode_frame_reject Config.hsm f hsync
  simp only [step, fetch, hdirect, hreject]

end Sys2Proof.Encoding
end

section
/-! What a step does around its operation (R80, R83, R89), and RESET (R300). -/

namespace Sys2Proof.Stepping

open Sys2Proof Sys2Proof.Machine

/-! The state an operation runs in. -/

/-- The state in which the operation of a record at time `now` runs, with `rest` still to come (R80, R83, R89). -/
def fetched (s : State) (now : Time) (rest : List InRecord) : State :=
  { s with inputs := rest, now := now, out := OutRecord.blank }

@[simp] theorem fetched_out (s : State) (now : Time) (rest : List InRecord) :
    (fetched s now rest).out = OutRecord.blank := rfl

/-- A step on a record runs the operation of its control word in the fetched state. -/
theorem step_eq_of_record {s : State} {r : InRecord} {rest : List InRecord} (hd : s.direct = none)
    (hi : s.inputs = r :: rest) :
    step s = .next (finish (opOf (ctlInstr r.rst r.sym) (fetched s r.now rest))) :=
  step_of_record hd hi

/-- A record that is no RESET runs no RESET operation (R81, R82). -/
theorem isReset_ctlInstr_of_not_rst (sym : BitVec 8) : isReset (ctlInstr false sym) = false := by
  obtain ⟨h, -⟩ | ⟨-, ⟨-, h⟩ | ⟨-, h⟩ | ⟨-, h⟩⟩ := ctlInstr_cases false sym
  · cases h
  all_goals rw [h]; rfl

/-- An operation answers the one state `opOf` names. -/
theorem eq_opOf_of_exec {i : Instr} {s t : State} (h : exec i s = .next t) : t = opOf i s :=
  (Host.Outcome.next.inj ((exec_eq i s).symm.trans h)).symm

/-- Settles O2: on a record and on a handed word alike, `exec` answers `opOf` of the decoded operation, and the step
finishes that state. -/
theorem stepRunsTheDecodedOperation : Obligations.StepRunsTheDecodedOperation := by
  unfold Obligations.StepRunsTheDecodedOperation
  refine ⟨fun s r rest i hd hi hdec => ?record, fun s w i hd hdec => ?handed⟩
  case record =>
    obtain rfl := Except.ok.inj ((decode_ctl Config.hsm r.rst r.sym).symm.trans hdec)
    exact ⟨_, exec_eq _ _, step_of_record hd hi⟩
  case handed => exact ⟨_, exec_eq _ _, step_of_direct hd hdec⟩

/-- Settles O3: without a record and without a handed operation the step is `idle`. -/
theorem stepWithoutInputKeepsEveryRegister : Obligations.StepWithoutInputKeepsEveryRegister := by
  unfold Obligations.StepWithoutInputKeepsEveryRegister
  exact fun s hd hi => step_of_none hd hi

/-! Single fields the stages leave alone (R30). -/

theorem fvFrame_fsShreg (c : Config) (f : Frame) (s : State) : (fvFrame c f s).fsShreg = s.fsShreg := by
  obtain ⟨-, -, -, hshreg, -, -⟩ := fvFrame_keeps c f s
  exact hshreg

theorem fsBit_ldState (c : Config) (b : Bool) (s : State) : (fsBit c b s).ldState = s.ldState := by
  obtain ⟨-, -, hld, -, -⟩ := fsBit_keeps c b s
  exact hld

theorem fsBit_out_bit (c : Config) (b : Bool) (s : State) : (fsBit c b s).out.bit = s.out.bit := by
  obtain ⟨-, -, -, -, hbit⟩ := fsBit_keeps c b s
  exact hbit

/-! RESET. -/

/-- Settles O13: the reset table lists nothing, so that every serial reads `EMPTY`. -/
theorem resetValuesOfEveryRegister : Obligations.ResetValuesOfEveryRegister := by
  unfold Obligations.ResetValuesOfEveryRegister
  exact ⟨rfl, rfl, rfl, rfl, rfl, rfl, Memory.read_nil⟩

/-- Settles O14: `opReset` assigns the seven registers, and its empty table reads `EMPTY` at every serial. -/
theorem resetWritesTheResetValues : Obligations.ResetWritesTheResetValues := by
  unfold Obligations.ResetWritesTheResetValues
  exact fun sym s =>
    ⟨opReset s, exec_eq (.reset sym) s, rfl, rfl, rfl, rfl, rfl, rfl, Memory.read_nil, rfl, rfl, rfl, rfl⟩

/-- RESET in a fetched state leaves the reset state with the later records waiting. -/
theorem finish_opReset_fetched {s : State} (hd : s.direct = none) (now : Time) (rest : List InRecord) :
    finish (opReset (fetched s now rest)) = { State.reset with inputs := rest } := by
  unfold finish opReset fetched
  rw [hd]
  rfl

/-- Settles O15: a control word with `rst = 1` selects RESET whatever its `sym`. -/
theorem resetRecordGivesTheResetState : Obligations.ResetRecordGivesTheResetState := by
  unfold Obligations.ResetRecordGivesTheResetState
  intro s sym now rest hd hi
  exact (step_eq_of_record hd hi).trans (congrArg Host.Outcome.next (finish_opReset_fetched hd now rest))

end Sys2Proof.Stepping
end

section
/-! The invariant of the registers and the device table (R46), and the canonical form of the table (log entry 8). -/

namespace Sys2Proof.Invariant

open Sys2Proof Sys2Proof.Machine Sys2Proof.DeviceTracker Sys2Proof.Stepping

/-! The entries and the canonical form. -/

/-- Steps 2 to 6 of UPDATE establish R46 for the entry they store. -/
theorem entryInv_trackEntry (c : Config) (st : Status) (now : Time) (e : DevEntry) :
    EntryInv c (trackEntry c st now (sighted e)) := by
  constructor
  · intro h
    rw [trackEntry_valid, sighted_valid] at h
    cases h
  · exact fun _ => ⟨lowerBaseline_le_bits _ _, rfl, rfl, rfl⟩

/-- R46 of the device table, with its canonical form. -/
structure TableInv (c : Config) (m : Memory) : Prop where
  canonical : m.wf = true
  entries : ∀ a : Serial, EntryInv c (m.read a)

theorem tableInv_nil (c : Config) : TableInv c [] := by
  refine ⟨Memory.wf_nil, fun a => ?_⟩
  rw [Memory.read_nil]
  exact ⟨fun _ => rfl, fun h => by cases h⟩

theorem TableInv.opUpdate {c : Config} {s : State} (h : TableInv c s.dev) (a : Serial) (st : Status) :
    TableInv c (opUpdate c a st s).dev := by
  constructor
  · rw [opUpdate_dev]
    exact Memory.wf_write h.canonical _ _
  · intro b
    by_cases hab : b = a
    · rw [hab, opUpdate_read_same]
      exact entryInv_trackEntry c st s.now _
    · rw [opUpdate_read_other c st s hab]
      exact h.entries b

theorem AtMostOneUpdate.tableInv {c : Config} {s t : State} (h : AtMostOneUpdate c s t) (hs : TableInv c s.dev) :
    TableInv c t.dev := by
  obtain h | ⟨a, st, h⟩ := h <;> rw [h]
  · exact hs
  · exact hs.opUpdate a st

theorem opOf_tableInv {s : State} (hs : TableInv Config.hsm s.dev) (i : Instr) :
    TableInv Config.hsm (opOf i s).dev := by
  by_cases hi : isReset i = true
  · cases i with
    | reset sym => exact tableInv_nil Config.hsm
    | _ => cases hi
  · exact AtMostOneUpdate.tableInv (opOf_atMostOneUpdate (eq_false_of_ne_true hi) s) hs

/-! The shift register holds no pattern (R46, R153). -/

/-- The register's top 16 bits differ from the pattern, unless the pattern is zero. -/
def NoPendingMatch (c : Config) (r : Frame) : Prop := c.syncPattern ≠ 0 → syncOf r ≠ c.syncPattern

theorem noPendingMatch_zero (c : Config) : NoPendingMatch c 0 := fun hpattern h => hpattern h.symm

theorem fsBit_noPendingMatch (c : Config) (b : Bool) (s : State) : NoPendingMatch c (fsBit c b s).fsShreg := by
  obtain ⟨hne, h⟩ | ⟨-, -, h⟩ | ⟨-, -, h⟩ := fsBit_cases c b s <;> rw [h]
  · exact fun _ => hne
  · exact noPendingMatch_zero c
  · rw [opUpdate_eq]
    exact noPendingMatch_zero c

theorem callChip_noPendingMatch {c : Config} {s : State} (hs : NoPendingMatch c s.fsShreg) (v : Bool) :
    NoPendingMatch c (callChip c v s).fsShreg := by
  obtain ⟨l, h⟩ | ⟨l, b, h⟩ := callChip_cases c v s <;> rw [h]
  · exact hs
  · exact fsBit_noPendingMatch c b _

theorem erSample_noPendingMatch {c : Config} {s : State} (hs : NoPendingMatch c s.fsShreg) (v : Bool) :
    NoPendingMatch c (erSample c v s).fsShreg := by
  obtain h | ⟨l, h⟩ | ⟨l, b, h⟩ := erSample_cases c v s <;> rw [h]
  · exact hs
  · exact hs
  · exact fsBit_noPendingMatch c b _

theorem opOf_noPendingMatch {s : State} (hs : NoPendingMatch Config.hsm s.fsShreg) (i : Instr) :
    NoPendingMatch Config.hsm (opOf i s).fsShreg := by
  cases i with
  | reset sym => exact noPendingMatch_zero Config.hsm
  | sym0 => exact erSample_noPendingMatch hs false
  | sym1 => exact erSample_noPendingMatch hs true
  | symx sym => exact hs
  | chip0 => exact callChip_noPendingMatch hs false
  | chip1 => exact callChip_noPendingMatch hs true
  | bit0 => exact fsBit_noPendingMatch Config.hsm false s
  | bit1 => exact fsBit_noPendingMatch Config.hsm true s
  | frameAlt f => rwa [opOf, fvFrame_fsShreg]
  | frameDef f => rwa [opOf, fvFrame_fsShreg]
  | update a st => rwa [opOf, opUpdate_eq]

/-! The invariant. -/

/-- The invariant is that of the table and that of the shift register. -/
theorem inv_iff (c : Config) (s : State) : Inv c s ↔ TableInv c s.dev ∧ NoPendingMatch c s.fsShreg :=
  ⟨fun h => ⟨⟨h.canonical, h.entries⟩, h.noPendingMatch⟩, fun ⟨ht, hr⟩ => ⟨ht.canonical, hr, ht.entries⟩⟩

/-- The invariant reads the table and the shift register only. -/
theorem inv_of_same {c : Config} {s t : State} (h : Inv c s) (hdev : t.dev = s.dev) (hshreg : t.fsShreg = s.fsShreg) :
    Inv c t := by
  rwa [inv_iff, hdev, hshreg, ← inv_iff]

theorem opOf_inv {s : State} (h : Inv Config.hsm s) (i : Instr) : Inv Config.hsm (opOf i s) := by
  obtain ⟨htable, hshreg⟩ := (inv_iff _ _).1 h
  exact (inv_iff _ _).2 ⟨opOf_tableInv htable i, opOf_noPendingMatch hshreg i⟩

theorem finish_inv {c : Config} {s : State} (h : Inv c s) : Inv c (finish s) := inv_of_same h rfl rfl

/-- Settles O4: every operation keeps the invariant, and what a step does around it touches neither the table nor the
shift register. -/
theorem stepKeepsTheInvariant : Obligations.StepKeepsTheInvariant := by
  unfold Obligations.StepKeepsTheInvariant
  intro s t hs hstep
  obtain ⟨-, -, rfl⟩ | ⟨r, rest, -, -, rfl⟩ | ⟨w, i, -, -, rfl⟩ := step_cases hstep
  · exact inv_of_same hs rfl rfl
  · refine finish_inv (opOf_inv ?_ _)
    exact inv_of_same hs rfl rfl
  · refine finish_inv (opOf_inv ?_ i)
    exact inv_of_same hs rfl rfl

/-- Settles O5: the table is empty and the shift register is zero. -/
theorem resetMeetsTheInvariant : Obligations.ResetMeetsTheInvariant := by
  unfold Obligations.ResetMeetsTheInvariant
  exact (inv_iff _ _).2 ⟨tableInv_nil _, noPendingMatch_zero _⟩

/-! The baseline (R46, last clause). -/

/-- Under the invariant step 1 of UPDATE takes the baseline the table reads: an unsighted entry reads `EMPTY`. -/
theorem sighted_alarmBaseline_of_entryInv {c : Config} {e : DevEntry} (h : EntryInv c e) :
    (sighted e).alarmBaseline = e.alarmBaseline := by
  cases hv : e.valid
  · rw [h.1 hv]
    rfl
  · rw [sighted_of_valid hv]

theorem opUpdate_alarmBaseline_le {c : Config} {s : State} (hs : TableInv c s.dev) (a : Serial) (st : Status)
    (b : Serial) : ((opUpdate c a st s).dev.read b).alarmBaseline ≤ (s.dev.read b).alarmBaseline := by
  by_cases hab : b = a
  · subst hab
    rw [opUpdate_read_same, trackEntry_alarmBaseline, sighted_alarmBaseline_of_entryInv (hs.entries b)]
    exact lowerBaseline_le_baseline _ _
  · rw [opUpdate_read_other c st s hab]
    exact BitVec.le_refl _

/-- Settles O54: the record's operation makes at most one UPDATE, which only lowers the baseline of its entry. -/
theorem baselineNeverRisesExceptByReset : Obligations.BaselineNeverRisesExceptByReset := by
  unfold Obligations.BaselineNeverRisesExceptByReset
  rintro s ⟨rst, sym, now⟩ rest hinv hd hi rfl
  refine ⟨_, step_eq_of_record hd hi, fun a => ?_⟩
  have htable : TableInv Config.hsm (fetched s now rest).dev := ((inv_iff _ _).1 hinv).1
  rw [State.finish_dev]
  obtain h | ⟨b, st, h⟩ := opOf_atMostOneUpdate (isReset_ctlInstr_of_not_rst sym) (fetched s now rest) <;> rw [h]
  · exact BitVec.le_refl _
  · exact opUpdate_alarmBaseline_le htable b st a

/-! One canonical form (log entry 8). -/

/-- A canonical table lists exactly the entries that are not `EMPTY`. -/
theorem mem_iff_readAt {m : Memory} (h : m.wf = true) (ke : Nat × DevEntry) :
    ke ∈ m ↔ ke.2 ≠ DevEntry.empty ∧ m.readAt ke.1 = ke.2 := by
  obtain ⟨hsorted, hentries⟩ := (Memory.wf_iff m).1 h
  constructor
  · exact fun hmem => ⟨(hentries ke hmem).2, Memory.readAt_of_mem hsorted hmem⟩
  · rintro ⟨hne, hread⟩
    by_contra hnot
    refine hne (hread ▸ Memory.readAt_of_not_mem fun kx hkx heq => hnot ?_)
    have hkx2 : kx.2 = ke.2 := by rw [← Memory.readAt_of_mem hsorted hkx, heq, hread]
    rwa [← Prod.ext heq hkx2]

/-- A canonical table reads as `EMPTY` above the 2^20 serials. -/
theorem readAt_of_ge {m : Memory} (h : m.wf = true) {a : Nat} (ha : 2 ^ 20 ≤ a) : m.readAt a = DevEntry.empty := by
  refine Memory.readAt_of_not_mem fun ke hke heq => ?_
  have hlt := (((Memory.wf_iff m).1 h).2 ke hke).1
  omega

theorem readAt_eq_of_read_eq {m m' : Memory} (h : m.wf = true) (h' : m'.wf = true)
    (hread : ∀ a : Serial, m.read a = m'.read a) (k : Nat) : m.readAt k = m'.readAt k := by
  by_cases hk : k < 2 ^ 20
  · have hserial := hread (BitVec.ofNat 20 k)
    rwa [Memory.read, Memory.read, BitVec.toNat_ofNat, Nat.mod_eq_of_lt hk] at hserial
  · rw [readAt_of_ge h (Nat.le_of_not_lt hk), readAt_of_ge h' (Nat.le_of_not_lt hk)]

/-- The serials of a canonical table rise strictly. -/
theorem pairwise_fst_lt {m : Memory} (h : m.wf = true) : m.Pairwise (fun x y => x.1 < y.1) :=
  List.pairwise_map.1 ((Memory.wf_iff m).1 h).1

theorem nodup_of_wf {m : Memory} (h : m.wf = true) : m.Nodup :=
  (pairwise_fst_lt h).imp fun hlt heq => absurd (congrArg Prod.fst heq) (Nat.ne_of_lt hlt)

/-- Settles O12: two canonical tables with the same reads list the same entries, in the one strictly rising order. -/
theorem deviceTablesWithEqualEntriesAreEqual : Obligations.DeviceTablesWithEqualEntriesAreEqual := by
  unfold Obligations.DeviceTablesWithEqualEntriesAreEqual
  intro m m' h h' hread
  have hmem : ∀ ke, ke ∈ m ↔ ke ∈ m' := fun ke => by
    rw [mem_iff_readAt h, mem_iff_readAt h', readAt_eq_of_read_eq h h' hread]
  have hperm : m.Perm m' := (List.perm_ext_iff_of_nodup (nodup_of_wf h) (nodup_of_wf h')).2 hmem
  refine hperm.eq_of_pairwise (fun x y _ _ hxy hyx => ?_) (pairwise_fst_lt h) (pairwise_fst_lt h')
  exact absurd hxy (Nat.lt_asymm hyx)

end Sys2Proof.Invariant
end

section
/-! Operations fed one after another, each with a fresh output record. -/

namespace Sys2Proof.Feeding

open Sys2Proof Sys2Proof.Machine

section
variable (i : Instr) (is : List Instr) (s : State)

/-- The state after the first of the operations fed. -/
theorem feed_cons : feed (i :: is) s =
    ((opOf i (s.setOut OutRecord.blank)).out :: (feed is (opOf i (s.setOut OutRecord.blank))).1,
      (feed is (opOf i (s.setOut OutRecord.blank))).2) := by
  simp only [feed, exec_eq]
  rfl

@[simp] theorem feed_cons_records : (feed (i :: is) s).1 =
    (opOf i (s.setOut OutRecord.blank)).out :: (feed is (opOf i (s.setOut OutRecord.blank))).1 := by
  rw [feed_cons]

@[simp] theorem feed_cons_state : (feed (i :: is) s).2 = (feed is (opOf i (s.setOut OutRecord.blank))).2 := by
  rw [feed_cons]

@[simp] theorem feed_nil : feed [] s = ([], s) := rfl

end

@[simp] theorem opOf_chipInstr (v : Bool) (s : State) : opOf (chipInstr v) s = callChip Config.hsm v s := by
  cases v <;> rfl

@[simp] theorem opOf_bitInstr (b : Bool) (s : State) : opOf (bitInstr b) s = fsBit Config.hsm b s := by
  cases b <;> rfl

@[simp] theorem opOf_sampleInstr (v : Bool) (s : State) : opOf (sampleInstr v) s = erSample Config.hsm v s := by
  cases v <;> rfl

end Sys2Proof.Feeding
end

section
/-! The Line Decoder by level and phase (R33, R131 to R134), and the chip encoding it inverts (R136). -/

namespace Sys2Proof.LineDecoder

open Sys2Proof Sys2Proof.Machine Sys2Proof.Stepping Sys2Proof.Feeding

/-! The decoder's table by level and phase. -/

/-- The B state of a level (R33); `levelState` is the A state. -/
def phaseB (v : Bool) : LdState := if v then .highB else .lowB

@[simp] theorem level_levelState (v : Bool) : (levelState v).level = v := by cases v <;> rfl

@[simp] theorem phase_levelState (v : Bool) : (levelState v).phase = false := by cases v <;> rfl

@[simp] theorem level_phaseB (v : Bool) : (phaseB v).level = v := by cases v <;> rfl

@[simp] theorem phase_phaseB (v : Bool) : (phaseB v).phase = true := by cases v <;> rfl

/-- Every state of the decoder is the A state or the B state of a level. -/
theorem ldState_cases (l : LdState) : ∃ v, l = levelState v ∨ l = phaseB v := by
  cases l with
  | lowA => exact ⟨false, Or.inl rfl⟩
  | lowB => exact ⟨false, Or.inr rfl⟩
  | highA => exact ⟨true, Or.inl rfl⟩
  | highB => exact ⟨true, Or.inr rfl⟩

/-- In an A state a chip of the other level begins a bit, and one of the same level is idle (R131, R132). -/
theorem callChip_of_levelState {c : Config} {s : State} {l : Bool} (v : Bool) (h : s.ldState = levelState l) :
    callChip c v s = s.setLd (if v = l then levelState l else phaseB v) := by
  cases l
  · rw [callChip_of_lowA v h]; cases v <;> rfl
  · rw [callChip_of_highA v h]; cases v <;> rfl

/-- In a B state any chip completes the bit of the state's level (R131, R132). -/
theorem callChip_of_phaseB {c : Config} {s : State} {b : Bool} (v : Bool) (h : s.ldState = phaseB b) :
    callChip c v s = fsBit c b ((s.setLd (levelState v)).emitBit b) := by
  cases b
  · exact callChip_of_lowB v h
  · exact callChip_of_highB v h

/-- The new level is the chip's value (R133). -/
theorem callChip_level (c : Config) (v : Bool) (s : State) : (callChip c v s).ldState.level = v := by
  obtain ⟨l, h | h⟩ := ldState_cases s.ldState
  · rw [callChip_of_levelState v h]
    by_cases hv : v = l <;> simp [hv]
  · rw [callChip_of_phaseB v h, fsBit_ldState, State.emitBit_ldState, State.setLd_ldState, level_levelState]

/-- The new phase is B exactly when the old one is A and the level changes. -/
theorem callChip_phase (c : Config) (v : Bool) (s : State) :
    (callChip c v s).ldState.phase = (!s.ldState.phase && (v != s.ldState.level)) := by
  obtain ⟨l, h | h⟩ := ldState_cases s.ldState
  · rw [callChip_of_levelState v h, h]
    by_cases hv : v = l <;> simp [hv]
  · rw [callChip_of_phaseB v h, fsBit_ldState, State.emitBit_ldState, State.setLd_ldState, h, phase_levelState,
      phase_phaseB]
    rfl

/-- A bit is emitted exactly in a B state, and it is the level of that state (R133). -/
theorem callChip_out_bit (c : Config) (v : Bool) (s : State) :
    (callChip c v s).out.bit = if s.ldState.phase then some s.ldState.level else s.out.bit := by
  obtain ⟨l, h | h⟩ := ldState_cases s.ldState
  · rw [callChip_of_levelState v h, h, phase_levelState, if_neg Bool.false_ne_true, State.setLd_out]
  · rw [callChip_of_phaseB v h, fsBit_out_bit, h, phase_phaseB, level_phaseB, if_pos rfl, State.emitBit_out]

/-! The obligations on single chips. -/

theorem level_eq_true_iff (l : LdState) : (l = .highA ∨ l = .highB) ↔ l.level = true := by
  cases l <;> simp [LdState.level]

/-- Settles O29: the emission and the new level, read off at each of the four states. -/
theorem bitIsEmittedExactlyInTheBStates : Obligations.BitIsEmittedExactlyInTheBStates := by
  unfold Obligations.BitIsEmittedExactlyInTheBStates
  intro v s hout
  have hbit := callChip_out_bit Config.hsm v s
  rw [hout] at hbit
  refine ⟨_, exec_chipInstr v s, fun h => ?lowB, fun h => ?highB, fun h => ?phaseA, ?level⟩
  case lowB => rw [hbit, h]; rfl
  case highB => rw [hbit, h]; rfl
  case phaseA => obtain h | h := h <;> rw [hbit, h] <;> rfl
  case level => rw [level_eq_true_iff, callChip_level]

/-- Settles O30: a chip that emits leaves an A state, in which the next chip emits nothing. -/
theorem consecutiveChipsNeverBothEmit : Obligations.ConsecutiveChipsNeverBothEmit := by
  unfold Obligations.ConsecutiveChipsNeverBothEmit
  intro v w s t u hout ht hu
  obtain rfl := Host.Outcome.next.inj ((exec_chipInstr v s).symm.trans ht)
  obtain rfl := Host.Outcome.next.inj ((exec_chipInstr w _).symm.trans hu)
  cases hphase : s.ldState.phase
  · left
    rw [callChip_out_bit, hphase, hout, if_neg Bool.false_ne_true]
  · right
    have hnext : (callChip Config.hsm v s).ldState.phase = false := by rw [callChip_phase, hphase]; rfl
    rw [callChip_out_bit, hnext, if_neg Bool.false_ne_true]
    rfl

/-- Settles O60: bit 1 of the register is the level and bit 0 the phase, and a chip's new level, new phase and bit are
functions of them. -/
theorem lineDecoderRunsOnItsCodedRegister : Obligations.LineDecoderRunsOnItsCodedRegister := by
  unfold Obligations.LineDecoderRunsOnItsCodedRegister
  refine ⟨⟨rfl, rfl, rfl, rfl⟩, fun l => ⟨LdState.ofCode_code l, LdState.code_level l, LdState.code_phase l⟩,
    LdState.code_ofCode, rfl, ?_⟩
  rintro v r s rfl hout
  refine ⟨_, exec_chipInstr v s, ?level, ?phase, ?bit⟩
  case level => exact (LdState.code_level _).trans (callChip_level Config.hsm v s)
  case phase =>
    refine (LdState.code_phase _).trans ((callChip_phase Config.hsm v s).trans ?_)
    rw [← LdState.code_phase, ← LdState.code_level]
    rfl
  case bit =>
    refine (callChip_out_bit Config.hsm v s).trans ?_
    rw [hout, ← LdState.code_phase, ← LdState.code_level]
    rfl

/-! The chip encoding of a bit sequence (R136). -/

/-- The level of the line before the bits bs: the opposite of the first bit, and low when no bit follows. -/
def levelBefore (bs : List Bool) : Bool := !(bs.head?.getD true)

/-- A bit's pair of chips is its own value and the level before the bits behind it. -/
theorem encChips_cons (b : Bool) (bs : List Bool) : encChips (b :: bs) = b :: levelBefore bs :: encChips bs := by
  cases bs <;> rfl

/-- The first chip of a bit's pair begins the bit. -/
theorem callChip_first {c : Config} {s : State} {b : Bool} (h : s.ldState = levelState (!b)) :
    callChip c b s = s.setLd (phaseB b) := by
  rw [callChip_of_levelState b h, if_neg (by simp)]

/-- The two chips of a bit: the first emits nothing, the second emits the bit and leaves the A state of its level. -/
theorem feed_pair {s : State} {b : Bool} (h : s.ldState = levelState (!b)) (v : Bool) (is : List Instr) :
    ∃ o t, o.bit = none ∧ t.out.bit = some b ∧ t.ldState = levelState v ∧
      feed (chipInstr b :: chipInstr v :: is) s = (o :: t.out :: (feed is t).1, (feed is t).2) := by
  have hfirst : callChip Config.hsm b (s.setOut OutRecord.blank) = (s.setOut OutRecord.blank).setLd (phaseB b) :=
    callChip_first h
  have hsecond := callChip_of_phaseB (c := Config.hsm) (b := b) v
    (s := ((s.setOut OutRecord.blank).setLd (phaseB b)).setOut OutRecord.blank) rfl
  have hfeed := feed_cons (chipInstr b) (chipInstr v :: is) s
  rw [opOf_chipInstr, hfirst, feed_cons (chipInstr v) is, opOf_chipInstr, hsecond] at hfeed
  refine ⟨_, _, ?first, ?bit, ?level, hfeed⟩
  case first => rfl
  case bit => rw [fsBit_out_bit, State.emitBit_out]
  case level => rw [fsBit_ldState, State.emitBit_ldState, State.setLd_ldState]

/-- From the level before the bits, their encoding makes the decoder emit them in order and ends in `LowA`. -/
theorem feed_encChips (bs : List Bool) {s : State} (h : s.ldState = levelState (levelBefore bs)) :
    (feed ((encChips bs).map chipInstr) s).1.map (·.bit) = bs.flatMap (fun b => [none, some b]) ∧
    (feed ((encChips bs).map chipInstr) s).2.ldState = .lowA := by
  induction bs generalizing s with
  | nil => exact ⟨rfl, h⟩
  | cons b bs ih =>
    obtain ⟨o, t, ho, hbit, hlevel, hfeed⟩ := feed_pair (b := b) h (levelBefore bs) ((encChips bs).map chipInstr)
    obtain ⟨hbits, hend⟩ := ih hlevel
    rw [encChips_cons, List.map_cons, List.map_cons, hfeed]
    refine ⟨?_, hend⟩
    rw [List.map_cons, List.map_cons, ho, hbit, hbits]
    rfl

/-- Settles O31: a first bit 1 expects the low level, and `LowA` is its A state. -/
theorem encodedBitsAreDecodedInOrder : Obligations.EncodedBitsAreDecodedInOrder := by
  unfold Obligations.EncodedBitsAreDecodedInOrder
  intro bs s hhead hld
  refine feed_encChips bs (hld.trans ?_)
  rw [levelBefore, hhead]
  rfl

end Sys2Proof.LineDecoder
end

section
/-! The Frame Synchronizer: the shift register bit by bit (R153), and the distance between candidates (R154). -/

namespace Sys2Proof.FrameSync

open Sys2Proof Sys2Proof.Machine Sys2Proof.Stepping Sys2Proof.Feeding Sys2Proof.LineDecoder

/-! What the validator answers to a candidate frame. -/

/-- The frame outcome of a candidate frame (R176). -/
def verdict (c : Config) (f : Frame) : FrameOutcome := if frameValid c f then .ok f else .bad f

theorem verdict_eq_ite_remainder (c : Config) (f : Frame) :
    verdict c f = if remainder (selectPoly c (sofOf f)) f = 0 then .ok f else .bad f := by
  simp [verdict, frameValid]

theorem fvFrame_out_frame (c : Config) (f : Frame) (s : State) : (fvFrame c f s).out.frame = verdict c f := by
  cases h : frameValid c f
  · rw [fvFrame_of_invalid h, verdict, h]
    rfl
  · rw [fvFrame_of_valid h, opUpdate_eq, verdict, h]
    rfl

theorem fvFrame_cntTotal (c : Config) (f : Frame) (s : State) : (fvFrame c f s).cntTotal = s.cntTotal + 1 := by
  cases h : frameValid c f
  · rw [fvFrame_of_invalid h]
  · rw [fvFrame_of_valid h, opUpdate_eq]

/-- Clearing the shift register before or after the frame is handed on is the same (R153). -/
theorem fvFrame_setShreg (c : Config) (f : Frame) (s : State) (r : Frame) :
    fvFrame c f (s.setShreg r) = (fvFrame c f s).setShreg r := by
  cases h : frameValid c f
  · rw [fvFrame_of_invalid h, fvFrame_of_invalid h]
    rfl
  · rw [fvFrame_of_valid h, fvFrame_of_valid h, opUpdate_eq, opUpdate_eq]
    rfl

/-! One bit. -/

theorem exec_frameInstr (f : Frame) (s : State) : exec (frameInstr f) s = .next (fvFrame Config.hsm f s) := by
  refine FrameValidator.exec_frame ?_ s
  unfold frameInstr
  split
  · exact Or.inl rfl
  · exact Or.inr rfl

theorem shiftIn_eq (r : Frame) (b : Bool) : shiftIn r b = (r <<< 1) ||| (if b then 1 else 0) := by
  cases b <;> rfl

/-- Settles O32: the two cases of `FS_BIT`, and the validator neither reads nor writes the shift register. -/
theorem bitShiftsInAndMatches : Obligations.BitShiftsInAndMatches := by
  unfold Obligations.BitShiftsInAndMatches
  intro b s f
  have hf : shiftIn s.fsShreg b = f := shiftIn_eq s.fsShreg b
  refine ⟨fun hne => ?kept, fun heq => ?handed⟩
  case kept =>
    have hno : syncOf (shiftIn s.fsShreg b) ≠ Config.hsm.syncPattern := by rwa [hf]
    rw [exec_bitInstr, fsBit_of_no_match hno, hf]
  case handed =>
    have hmatch : syncOf (shiftIn s.fsShreg b) = Config.hsm.syncPattern := by rwa [hf]
    have hbit := fsBit_of_match hmatch
    rw [hf] at hbit
    refine ⟨fvFrame Config.hsm f (s.setShreg 0), ?_, exec_frameInstr f _, fvFrame_fsShreg _ _ _, ?_,
      fvFrame_cntTotal _ _ _, fvFrame Config.hsm f (s.setShreg f), exec_frameInstr f _, ?_⟩
    · rw [exec_bitInstr, hbit]
      rfl
    · rw [fvFrame_out_frame, verdict]
      split
      · exact Or.inl rfl
      · exact Or.inr rfl
    · rw [fvFrame_setShreg, fvFrame_setShreg]
      rfl

/-- Settles O33: 0x…6 does not match the pattern; 0xFFFE81579BDE0247 does, and leaves a remainder. -/
theorem bitExamplesOfTheSpec : Obligations.BitExamplesOfTheSpec := by
  unfold Obligations.BitExamplesOfTheSpec
  refine ⟨fun s hs => ?keep, fun s hs => ?complete⟩
  case keep =>
    have hshift : shiftIn s.fsShreg false = 0x0000000000000006 := by rw [hs]; rfl
    refine (exec_bitInstr false s).trans (congrArg Host.Outcome.next ?_)
    rw [fsBit_of_no_match (by rw [hshift]; decide), hshift]
  case complete =>
    have hshift : shiftIn s.fsShreg true = 0xFFFE81579BDE0247 := by rw [hs]; rfl
    have hinvalid : frameValid Config.hsm 0xFFFE81579BDE0247 = false := by decide +kernel
    refine ⟨_, exec_bitInstr true s, ?_⟩
    rw [fsBit_of_match (by rw [hshift]; decide), hshift, fvFrame_of_invalid hinvalid]
    exact ⟨rfl, rfl⟩

/-! The register as a window on the bits received. -/

theorem getLsbD_shiftIn_zero (r : Frame) (b : Bool) : (shiftIn r b).getLsbD 0 = b := by
  rw [shiftIn_eq]
  cases b <;> simp

theorem getLsbD_shiftIn_succ (r : Frame) (b : Bool) {i : Nat} (hi : i + 1 < 64) :
    (shiftIn r b).getLsbD (i + 1) = r.getLsbD i := by
  rw [shiftIn_eq]
  cases b <;> simp [hi, BitVec.getLsbD_eq_getElem (show i < 64 by omega)]

/-- The pattern begins with a 1 (D9). -/
theorem getLsbD_63_of_sync {f : Frame} (h : syncOf f = Config.hsm.syncPattern) : f.getLsbD 63 = true := by
  have htop : (syncOf f).getLsbD 15 = true := by rw [h]; decide
  simpa [syncOf, BitVec.getLsbD_extractLsb'] using htop

/-- Without a 1 in the highest bit of the shifted register there is no match. -/
theorem fsBit_of_top_bit_clear {b : Bool} {s : State} (h : (shiftIn s.fsShreg b).getLsbD 63 = false) :
    fsBit Config.hsm b s = s.setShreg (shiftIn s.fsShreg b) := by
  refine fsBit_of_no_match fun hsync => ?_
  rw [getLsbD_63_of_sync hsync] at h
  cases h

/-- The register holds no 1 at position k or above. -/
def ClearFrom (k : Nat) (r : Frame) : Prop := ∀ i, k ≤ i → r.getLsbD i = false

theorem clearFrom_zero : ClearFrom 0 0 := fun _ _ => BitVec.getLsbD_zero

theorem ClearFrom.shiftIn {k : Nat} {r : Frame} (h : ClearFrom k r) (b : Bool) : ClearFrom (k + 1) (shiftIn r b) := by
  intro i hi
  obtain ⟨j, rfl⟩ : ∃ j, i = j + 1 := ⟨i - 1, by omega⟩
  by_cases hj : j + 1 < 64
  · rw [getLsbD_shiftIn_succ r b hj]
    exact h j (by omega)
  · exact BitVec.getLsbD_of_ge _ _ (by omega)

theorem clearFrom_of_toNat_lt {k : Nat} {v : BitVec 64} (h : v.toNat < 2 ^ k) : ClearFrom k v :=
  fun _ hi => Nat.testBit_lt_two_pow (Nat.lt_of_lt_of_le h (Nat.pow_le_pow_right (by decide) hi))

theorem ClearFrom.toNat_lt {k : Nat} {v : BitVec 64} (h : ClearFrom k v) : v.toNat < 2 ^ k :=
  Nat.lt_pow_two_of_testBit _ h

theorem ClearFrom.xor {k : Nat} {v w : BitVec 64} (hv : ClearFrom k v) (hw : ClearFrom k w) :
    ClearFrom k (v ^^^ w) := by
  intro i hi
  rw [BitVec.getLsbD_xor, hv i hi, hw i hi]
  rfl

theorem ClearFrom.mono {k l : Nat} {v : BitVec 64} (h : ClearFrom k v) (hkl : k ≤ l) : ClearFrom l v :=
  fun i hi => h i (Nat.le_trans hkl hi)

/-- A value clear from k + 1 on whose bit k is 0 is clear from k on. -/
theorem ClearFrom.pred {k : Nat} {v : BitVec 64} (h : ClearFrom (k + 1) v) (hk : v.getLsbD k = false) :
    ClearFrom k v := by
  intro i hi
  obtain rfl | hlt := Nat.eq_or_lt_of_le hi
  · exact hk
  · exact h i hlt

/-- While fewer than 64 bits have come in, no candidate is handed on. -/
theorem feed_bits_frame_none (bs : List Bool) {k : Nat} {s : State} (hclear : ClearFrom k s.fsShreg)
    (hlen : k + bs.length < 64) : ∀ o ∈ (feed (bs.map bitInstr) s).1, o.frame = .none := by
  induction bs generalizing s k with
  | nil => simp
  | cons b bs ih =>
    rw [List.length_cons] at hlen
    have hshift := hclear.shiftIn b
    have hstep := fsBit_of_top_bit_clear (s := s.setOut OutRecord.blank) (hshift 63 (by omega))
    rw [List.map_cons, feed_cons_records, opOf_bitInstr, hstep]
    refine List.forall_mem_cons.2 ⟨rfl, ih (k := k + 1) hshift (by omega)⟩

/-! The 64 bits of a frame. -/

/-- The n low bits of a frame, the highest of them first. -/
def lowBits (f : Frame) : Nat → List Bool
  | 0 => []
  | n + 1 => f.getLsbD n :: lowBits f n

theorem lowBits_eq_map_range (f : Frame) (n : Nat) :
    (List.range n).map (fun i => f.getLsbD (n - 1 - i)) = lowBits f n := by
  induction n with
  | zero => rfl
  | succ n ih =>
    rw [List.range_succ_eq_map, List.map_cons, List.map_map, lowBits, ← ih]
    refine congrArg₂ List.cons rfl (List.map_congr_left fun i _ => congrArg f.getLsbD ?_)
    simp only [Nat.succ_eq_add_one]
    omega

theorem frameBits_eq_lowBits (f : Frame) : frameBits f = lowBits f 64 := lowBits_eq_map_range f 64

/-- The register shows the frame's bits received so far; the next bit moves the window by one. -/
theorem shiftIn_ushiftRight (f : Frame) (n : Nat) : shiftIn (f >>> (n + 1)) (f.getLsbD n) = f >>> n := by
  apply BitVec.eq_of_getLsbD_eq
  intro i hi
  cases i with
  | zero => rw [getLsbD_shiftIn_zero, BitVec.getLsbD_ushiftRight, Nat.add_zero]
  | succ i =>
    rw [getLsbD_shiftIn_succ _ _ hi, BitVec.getLsbD_ushiftRight, BitVec.getLsbD_ushiftRight]
    congr 1
    omega

/-- A bit before the last one of a frame only moves the window. -/
theorem fsBit_inner {f : Frame} {n : Nat} {s : State} (h : s.fsShreg = f >>> (n + 2)) :
    fsBit Config.hsm (f.getLsbD (n + 1)) s = s.setShreg (f >>> (n + 1)) := by
  have hshift : shiftIn s.fsShreg (f.getLsbD (n + 1)) = f >>> (n + 1) := by rw [h, shiftIn_ushiftRight]
  rw [fsBit_of_top_bit_clear, hshift]
  rw [hshift, BitVec.getLsbD_ushiftRight]
  exact BitVec.getLsbD_of_ge _ _ (by omega)

/-- The last bit of a frame with the pattern hands the frame on. -/
theorem fsBit_last {f : Frame} {s : State} (hsync : syncOf f = Config.hsm.syncPattern) (h : s.fsShreg = f >>> 1) :
    fsBit Config.hsm (f.getLsbD 0) s = fvFrame Config.hsm f (s.setShreg 0) := by
  have hshift : shiftIn s.fsShreg (f.getLsbD 0) = f := by rw [h]; exact shiftIn_ushiftRight f 0
  rw [fsBit_of_match (by rwa [hshift]), hshift]
  rfl

theorem feed_lowBits {f : Frame} (hsync : syncOf f = Config.hsm.syncPattern) (n : Nat) {s : State}
    (h : s.fsShreg = f >>> (n + 1)) :
    (feed ((lowBits f (n + 1)).map bitInstr) s).1.map (·.frame)
      = List.replicate n .none ++ [verdict Config.hsm f] ∧
    (feed ((lowBits f (n + 1)).map bitInstr) s).2.fsShreg = 0 := by
  induction n generalizing s with
  | zero =>
    have hlast := fsBit_last (s := s.setOut OutRecord.blank) hsync h
    simp only [lowBits, List.map_cons, List.map_nil, feed_cons_records, feed_cons_state, feed_nil, opOf_bitInstr,
      hlast, fvFrame_out_frame, fvFrame_fsShreg]
    exact ⟨rfl, rfl⟩
  | succ n ih =>
    have hinner := fsBit_inner (s := s.setOut OutRecord.blank) h
    obtain ⟨hframes, hend⟩ := ih (s := (s.setOut OutRecord.blank).setShreg (f >>> (n + 1))) rfl
    rw [lowBits, List.map_cons, feed_cons, opOf_bitInstr, hinner, List.map_cons, hframes]
    exact ⟨rfl, hend⟩

/-- Settles O34: fewer than 64 bits leave the highest position clear, and the 64 bits of a frame end in the frame
itself. -/
theorem candidatesAreSixtyFourBitsApart : Obligations.CandidatesAreSixtyFourBitsApart := by
  unfold Obligations.CandidatesAreSixtyFourBitsApart
  refine ⟨fun bs s hlen hzero => ?few, fun f s hsync hzero => ?full⟩
  case few => exact feed_bits_frame_none bs (k := 0) (hzero ▸ clearFrom_zero) (by omega)
  case full =>
    rw [frameBits_eq_lowBits, ← verdict_eq_ite_remainder]
    refine feed_lowBits hsync 63 (hzero.trans ?_)
    exact (BitVec.ushiftRight_eq_zero (Nat.le_refl 64)).symm

end Sys2Proof.FrameSync
end

section
/-! The output record as ports (R89) and the notification word (R90, R91). -/

namespace Sys2Proof.Output

open Sys2Proof Sys2Proof.Machine

/-- Settles O56: the serial stands above the three flags, the alarm highest among them. -/
theorem notificationWordLayout : Obligations.NotificationWordLayout := by
  unfold Obligations.NotificationWordLayout
  refine fun a alarm tamper low => ⟨?serial, ?alarm, ?tamper, ?low⟩
  case serial => exact BitVec.extractLsb'_append_eq_left
  all_goals
    simp only [ntfWord, BitVec.getLsbD_append, BitVec.getLsbD_ofBool]
    simp

theorem extractLsb'_entryWord (a : Serial) (e : DevEntry) : (entryWord a e).extractLsb' 3 20 = a :=
  (notificationWordLayout a e.alarm e.tamper e.batteryLow).1

/-- Settles O57: the fields of the word are read back by its layout, and the messages follow the flags. -/
theorem notificationMakesTwoPublishCalls : Obligations.NotificationMakesTwoPublishCalls := by
  unfold Obligations.NotificationMakesTwoPublishCalls
  intro a alarm tamper low
  obtain ⟨hserial, halarm, htamper, hlow⟩ := notificationWordLayout a alarm tamper low
  rw [publishCalls, hserial, halarm, htamper, hlow]
  cases tamper <;> cases low <;> rfl

/-- Settles O58: each port reads its field of the record alone, so that each clause is that field's value put in. -/
theorem outputPortsHaveNoneValues : Obligations.OutputPortsHaveNoneValues := by
  unfold Obligations.OutputPortsHaveNoneValues
  intro o
  refine ⟨fun h => ?_, fun v h => ?_, fun h => ?_, fun b h => ?_, fun h => ?_, fun f h => ?_, fun f h => ?_,
    fun h => ?_, fun a st h => ?_, fun h => ?_, fun w h => ?_, rfl, rfl⟩
  all_goals simp [OutRecord.ports, FrameOutcome.code, FrameOutcome.data, h]

end Sys2Proof.Output
end

section
/-! What an operation writes: no register and no output field of an earlier stage (R30), and one entry of the table. -/

namespace Sys2Proof.Frames

open Sys2Proof Sys2Proof.Machine Sys2Proof.Stepping Sys2Proof.DeviceTracker

/-! The counters on the output record are written by the end of a step alone (R89). -/

/-- Two states show the same counters on the output record. -/
def SameOutCounts (s t : State) : Prop := t.out.cntTotal = s.out.cntTotal ∧ t.out.cntInvalid = s.out.cntInvalid

theorem opUpdate_sameOutCounts (c : Config) (a : Serial) (st : Status) (s : State) :
    SameOutCounts s (opUpdate c a st s) := by
  rw [opUpdate_eq]
  exact ⟨rfl, rfl⟩

theorem fsBit_sameOutCounts (c : Config) (b : Bool) (s : State) : SameOutCounts s (fsBit c b s) := by
  obtain ⟨-, h⟩ | ⟨-, -, h⟩ | ⟨-, -, h⟩ := fsBit_cases c b s <;> rw [h]
  · exact ⟨rfl, rfl⟩
  · exact ⟨rfl, rfl⟩
  · exact opUpdate_sameOutCounts c _ _ _

theorem fvFrame_sameOutCounts (c : Config) (f : Frame) (s : State) : SameOutCounts s (fvFrame c f s) := by
  cases h : frameValid c f
  · rw [fvFrame_of_invalid h]
    exact ⟨rfl, rfl⟩
  · rw [fvFrame_of_valid h]
    exact opUpdate_sameOutCounts c _ _ _

theorem callChip_sameOutCounts (c : Config) (v : Bool) (s : State) : SameOutCounts s (callChip c v s) := by
  obtain ⟨l, h⟩ | ⟨l, b, h⟩ := callChip_cases c v s <;> rw [h]
  · exact ⟨rfl, rfl⟩
  · exact fsBit_sameOutCounts c b _

theorem erSample_sameOutCounts (c : Config) (v : Bool) (s : State) : SameOutCounts s (erSample c v s) := by
  obtain h | ⟨l, h⟩ | ⟨l, b, h⟩ := erSample_cases c v s <;> rw [h]
  · exact ⟨rfl, rfl⟩
  · exact ⟨rfl, rfl⟩
  · exact fsBit_sameOutCounts c b _

theorem opOf_sameOutCounts (i : Instr) (s : State) : SameOutCounts s (opOf i s) := by
  cases i with
  | reset sym => exact ⟨rfl, rfl⟩
  | sym0 => exact erSample_sameOutCounts Config.hsm false s
  | sym1 => exact erSample_sameOutCounts Config.hsm true s
  | symx sym => exact ⟨rfl, rfl⟩
  | chip0 => exact callChip_sameOutCounts Config.hsm false s
  | chip1 => exact callChip_sameOutCounts Config.hsm true s
  | bit0 => exact fsBit_sameOutCounts Config.hsm false s
  | bit1 => exact fsBit_sameOutCounts Config.hsm true s
  | frameAlt f => exact fvFrame_sameOutCounts Config.hsm f s
  | frameDef f => exact fvFrame_sameOutCounts Config.hsm f s
  | update a st => exact opUpdate_sameOutCounts Config.hsm a st s

/-! The registers and output fields of the earlier stages, stage by stage. -/

/-- UPDATE writes the device table and the notification only (R200). -/
theorem opUpdate_keeps (c : Config) (a : Serial) (st : Status) (s : State) :
    { opUpdate c a st s with dev := s.dev, out := { (opUpdate c a st s).out with ntf := s.out.ntf } } = s := by
  rw [opUpdate_eq]

/-- The recognizer's registers and its output field are those of s. -/
def SameRecognizer (s t : State) : Prop := t.erPrev = s.erPrev ∧ t.erRun = s.erRun ∧ t.out.chip = s.out.chip

/-- The decoder's register and its output field are those of s. -/
def SameDecoder (s t : State) : Prop := t.ldState = s.ldState ∧ t.out.bit = s.out.bit

theorem callChip_sameRecognizer (c : Config) (v : Bool) (s : State) : SameRecognizer s (callChip c v s) := by
  obtain ⟨-, her, hchip⟩ := callChip_keeps c v s
  exact ⟨her.prev, her.run, hchip⟩

theorem fsBit_sameRecognizer (c : Config) (b : Bool) (s : State) : SameRecognizer s (fsBit c b s) := by
  obtain ⟨-, her, -, hchip, -⟩ := fsBit_keeps c b s
  exact ⟨her.prev, her.run, hchip⟩

theorem fvFrame_sameRecognizer (c : Config) (f : Frame) (s : State) : SameRecognizer s (fvFrame c f s) := by
  obtain ⟨-, her, -, -, hchip, -⟩ := fvFrame_keeps c f s
  exact ⟨her.prev, her.run, hchip⟩

theorem opUpdate_sameRecognizer (c : Config) (a : Serial) (st : Status) (s : State) :
    SameRecognizer s (opUpdate c a st s) := by
  rw [opUpdate_eq]
  exact ⟨rfl, rfl, rfl⟩

theorem fsBit_sameDecoder (c : Config) (b : Bool) (s : State) : SameDecoder s (fsBit c b s) :=
  ⟨fsBit_ldState c b s, fsBit_out_bit c b s⟩

theorem fvFrame_sameDecoder (c : Config) (f : Frame) (s : State) : SameDecoder s (fvFrame c f s) := by
  obtain ⟨-, -, hld, -, -, hbit⟩ := fvFrame_keeps c f s
  exact ⟨hld, hbit⟩

theorem opUpdate_sameDecoder (c : Config) (a : Serial) (st : Status) (s : State) :
    SameDecoder s (opUpdate c a st s) := by
  rw [opUpdate_eq]
  exact ⟨rfl, rfl⟩

/-- Only RESET and the two samples write the recognizer's registers. -/
theorem opOf_sameRecognizer {i : Instr} (hr : isReset i = false) (h0 : i ≠ .sym0) (h1 : i ≠ .sym1) (s : State) :
    SameRecognizer s (opOf i s) := by
  cases i with
  | reset sym => cases hr
  | sym0 => exact absurd rfl h0
  | sym1 => exact absurd rfl h1
  | symx sym => exact ⟨rfl, rfl, rfl⟩
  | chip0 => exact callChip_sameRecognizer Config.hsm false s
  | chip1 => exact callChip_sameRecognizer Config.hsm true s
  | bit0 => exact fsBit_sameRecognizer Config.hsm false s
  | bit1 => exact fsBit_sameRecognizer Config.hsm true s
  | frameAlt f => exact fvFrame_sameRecognizer Config.hsm f s
  | frameDef f => exact fvFrame_sameRecognizer Config.hsm f s
  | update a st => exact opUpdate_sameRecognizer Config.hsm a st s

/-- Settles O6: the keeping lemma of each stage, on the operations that begin at it or behind it. -/
theorem stagesWriteNoEarlierStage : Obligations.StagesWriteNoEarlierStage := by
  unfold Obligations.StagesWriteNoEarlierStage
  intro i s t hr hexec
  obtain rfl := eq_opOf_of_exec hexec
  obtain ⟨hinputs, hdirect, hnow⟩ := Completion.opOf_sameHost i s
  obtain ⟨htotal, hinvalid⟩ := opOf_sameOutCounts i s
  refine ⟨⟨hinputs, hdirect, hnow, htotal, hinvalid⟩, fun h0 h1 => opOf_sameRecognizer hr h0 h1 s,
    ?decoder, ?synchronizer, ?validator⟩
  case decoder =>
    rintro (rfl | rfl | ⟨f, rfl | rfl⟩ | ⟨a, st, rfl⟩)
    · exact fsBit_sameDecoder Config.hsm false s
    · exact fsBit_sameDecoder Config.hsm true s
    · exact fvFrame_sameDecoder Config.hsm f s
    · exact fvFrame_sameDecoder Config.hsm f s
    · exact opUpdate_sameDecoder Config.hsm a st s
  case synchronizer =>
    rintro (⟨f, rfl | rfl⟩ | ⟨a, st, rfl⟩)
    · exact fvFrame_fsShreg Config.hsm f s
    · exact fvFrame_fsShreg Config.hsm f s
    · rw [opOf, opUpdate_eq]
  case validator =>
    rintro ⟨a, st, rfl⟩
    rw [opOf, opUpdate_eq]
    exact ⟨rfl, rfl, rfl, rfl⟩

/-! The one entry an operation stores. -/

theorem fvFrame_read_other {c : Config} {f : Frame} {a : Serial} (h : frameTarget c f ≠ some a) (s : State) :
    (fvFrame c f s).dev.read a = s.dev.read a := by
  cases hv : frameValid c f
  · rw [fvFrame_of_invalid hv]
  · have ha : a ≠ serialOf f := fun heq => h (by rw [frameTarget, hv, if_pos rfl, heq])
    rw [fvFrame_of_valid hv, opUpdate_read_other c _ _ ha]

theorem fsBit_read_other {c : Config} {b : Bool} {s : State} {a : Serial} (h : bitTarget c b s ≠ some a) :
    (fsBit c b s).dev.read a = s.dev.read a := by
  by_cases hm : syncOf (shiftIn s.fsShreg b) = c.syncPattern
  · rw [bitTarget, if_pos hm] at h
    rw [fsBit_of_match hm, fvFrame_read_other h]
  · rw [fsBit_of_no_match hm]

theorem callChip_read_other {c : Config} {s : State} {a : Serial} (v : Bool) (h : chipTarget c s ≠ some a) :
    (callChip c v s).dev.read a = s.dev.read a := by
  unfold chipTarget at h
  cases hl : s.ldState with
  | lowA => rw [callChip_of_lowA v hl]
  | lowB => rw [hl] at h; rw [callChip_of_lowB v hl]; exact fsBit_read_other h
  | highA => rw [callChip_of_highA v hl]
  | highB => rw [hl] at h; rw [callChip_of_highB v hl]; exact fsBit_read_other h

theorem erSample_read_other {c : Config} {v : Bool} {s : State} {a : Serial} (h : sampleTarget c v s ≠ some a) :
    (erSample c v s).dev.read a = s.dev.read a := by
  cases hm : midChip c (nextRun v s)
  · rw [erSample_of_no_chip hm]
  · rw [sampleTarget, if_pos hm] at h
    rw [erSample_of_chip hm]
    exact callChip_read_other v h

/-- Settles O7: each stage hands `storeTarget` of the next one down to the serial its UPDATE writes. -/
theorem onlyTheTargetEntryIsStored : Obligations.OnlyTheTargetEntryIsStored := by
  unfold Obligations.OnlyTheTargetEntryIsStored
  intro i s t hr hexec a ha
  obtain rfl := eq_opOf_of_exec hexec
  cases i with
  | reset sym => cases hr
  | sym0 => exact erSample_read_other ha
  | sym1 => exact erSample_read_other ha
  | symx sym => rfl
  | chip0 => exact callChip_read_other false ha
  | chip1 => exact callChip_read_other true ha
  | bit0 => exact fsBit_read_other ha
  | bit1 => exact fsBit_read_other ha
  | frameAlt f => exact fvFrame_read_other ha s
  | frameDef f => exact fvFrame_read_other ha s
  | update b st => exact opUpdate_read_other Config.hsm st s fun heq => ha (congrArg some heq.symm)

end Sys2Proof.Frames
end

section
/-! The events of a step (R72, R266), the counters (D12) and the device table, by the frame outcome of the sample. -/

namespace Sys2Proof.Events

open Sys2Proof Sys2Proof.Machine Sys2Proof.Stepping Sys2Proof.DeviceTracker

/-! The three frame outcomes of an operation between the states s and t. -/

/-- No candidate frame: nothing is counted or stored, and a bit needs a chip. -/
structure NoCandidate (s t : State) : Prop where
  chain : t.out.bit ≠ none → t.out.chip ≠ none
  frame : t.out.frame = .none
  upd : t.out.upd = none
  ntf : t.out.ntf = none
  total : t.cntTotal = s.cntTotal
  invalid : t.cntInvalid = s.cntInvalid
  dev : t.dev = s.dev

/-- The candidate frame f is discarded (R179). -/
structure Discarded (f : Frame) (s t : State) : Prop where
  chip : t.out.chip ≠ none
  bit : t.out.bit ≠ none
  frame : t.out.frame = .bad f
  upd : t.out.upd = none
  ntf : t.out.ntf = none
  total : t.cntTotal = s.cntTotal + 1
  invalid : t.cntInvalid = s.cntInvalid + 1
  dev : t.dev = s.dev

/-- The candidate frame f is valid and updates its device at time `now` (R178, R200). -/
structure Applied (c : Config) (f : Frame) (now : Time) (s t : State) : Prop where
  sync : syncOf f = c.syncPattern
  valid : frameValid c f = true
  chip : t.out.chip ≠ none
  bit : t.out.bit ≠ none
  frame : t.out.frame = .ok f
  upd : t.out.upd = some (serialOf f, statusOf f)
  ntf : ∀ w, t.out.ntf = some w → w.extractLsb' 3 20 = serialOf f
  total : t.cntTotal = s.cntTotal + 1
  invalid : t.cntInvalid = s.cntInvalid
  dev : t.dev = s.dev.write (serialOf f) (trackEntry c (statusOf f) now (sighted (s.dev.read (serialOf f))))

/-- One of the three outcomes. -/
def FrameEvent (c : Config) (now : Time) (s t : State) : Prop :=
  NoCandidate s t ∨ (∃ f, Discarded f s t) ∨ ∃ f, Applied c f now s t

/-- The outcomes compare with the counters and the table of the earlier state only. -/
theorem FrameEvent.of_same {c : Config} {now : Time} {s s' t : State} (h : FrameEvent c now s' t)
    (htotal : s'.cntTotal = s.cntTotal) (hinvalid : s'.cntInvalid = s.cntInvalid) (hdev : s'.dev = s.dev) :
    FrameEvent c now s t := by
  obtain h | ⟨f, h⟩ | ⟨f, h⟩ := h
  · exact Or.inl ⟨h.chain, h.frame, h.upd, h.ntf, htotal ▸ h.total, hinvalid ▸ h.invalid, hdev ▸ h.dev⟩
  · exact Or.inr (Or.inl ⟨f, h.chip, h.bit, h.frame, h.upd, h.ntf, htotal ▸ h.total, hinvalid ▸ h.invalid,
      hdev ▸ h.dev⟩)
  · exact Or.inr (Or.inr ⟨f, h.sync, h.valid, h.chip, h.bit, h.frame, h.upd, h.ntf, htotal ▸ h.total,
      hinvalid ▸ h.invalid, hdev ▸ h.dev⟩)

/-- The notification UPDATE leaves carries its serial, if there was none before (R90). -/
theorem opUpdate_ntf_serial {c : Config} {a : Serial} {st : Status} {s : State} (hs : s.out.ntf = none)
    {w : BitVec 23} (h : (opUpdate c a st s).out.ntf = some w) : w.extractLsb' 3 20 = a := by
  rw [opUpdate_eq, hs] at h
  cases hn : notifies c st s.now (s.dev.read a)
  · rw [hn] at h
    cases h
  · rw [hn, if_pos rfl, Option.some.injEq] at h
    rw [← h, Output.extractLsb'_entryWord]

/-- The outcomes of a bit behind a chip, both already on an output record without later events. -/
theorem fsBit_frameEvent {c : Config} {b : Bool} {s : State} (hchip : s.out.chip ≠ none) (hbit : s.out.bit ≠ none)
    (hframe : s.out.frame = .none) (hupd : s.out.upd = none) (hntf : s.out.ntf = none) :
    FrameEvent c s.now s (fsBit c b s) := by
  obtain ⟨-, h⟩ | ⟨-, -, h⟩ | ⟨hsync, hvalid, h⟩ := fsBit_cases c b s <;> rw [h]
  · exact Or.inl ⟨fun _ => hchip, hframe, hupd, hntf, rfl, rfl, rfl⟩
  · exact Or.inr (Or.inl ⟨_, hchip, hbit, rfl, hupd, hntf, rfl, rfl, rfl⟩)
  · refine Or.inr (Or.inr ⟨_, hsync, hvalid, ?_, ?_, ?_, ?_, fun w hw => opUpdate_ntf_serial ?noNtf hw, ?_, ?_, ?_⟩)
    case noNtf => exact hntf
    all_goals rw [opUpdate_eq]
    · exact hchip
    · exact hbit

/-- The outcomes of a sample. -/
theorem erSample_frameEvent (c : Config) (v : Bool) {s : State} (hs : s.out = OutRecord.blank) :
    FrameEvent c s.now s (erSample c v s) := by
  obtain h | ⟨l, h⟩ | ⟨l, b, h⟩ := erSample_cases c v s <;> rw [h]
  · exact Or.inl ⟨fun hb => absurd (congrArg OutRecord.bit hs) hb, congrArg OutRecord.frame hs,
      congrArg OutRecord.upd hs, congrArg OutRecord.ntf hs, rfl, rfl, rfl⟩
  · exact Or.inl ⟨fun _ => Option.some_ne_none v, congrArg OutRecord.frame hs, congrArg OutRecord.upd hs,
      congrArg OutRecord.ntf hs, rfl, rfl, rfl⟩
  · refine (fsBit_frameEvent ?_ ?_ ?_ ?_ ?_).of_same rfl rfl rfl
    · exact Option.some_ne_none v
    · exact Option.some_ne_none b
    · exact congrArg OutRecord.frame hs
    · exact congrArg OutRecord.upd hs
    · exact congrArg OutRecord.ntf hs

theorem opOf_ctlInstr_frameEvent (sym : BitVec 8) {s : State} (hs : s.out = OutRecord.blank) :
    FrameEvent Config.hsm s.now s (opOf (ctlInstr false sym) s) := by
  obtain ⟨hc, -⟩ | ⟨-, ⟨-, h⟩ | ⟨-, h⟩ | ⟨-, h⟩⟩ := ctlInstr_cases false sym
  · cases hc
  all_goals rw [h]
  · exact erSample_frameEvent Config.hsm false hs
  · exact erSample_frameEvent Config.hsm true hs
  · exact Or.inl ⟨fun hb => absurd (congrArg OutRecord.bit hs) hb, congrArg OutRecord.frame hs,
      congrArg OutRecord.upd hs, congrArg OutRecord.ntf hs, rfl, rfl, rfl⟩

/-- The end of a step leaves the events, the registers and the table as they are. -/
theorem FrameEvent.finish {c : Config} {now : Time} {s t : State} (h : FrameEvent c now s t) :
    FrameEvent c now s (finish t) := by
  obtain h | ⟨f, h⟩ | ⟨f, h⟩ := h
  · exact Or.inl ⟨h.chain, h.frame, h.upd, h.ntf, h.total, h.invalid, h.dev⟩
  · exact Or.inr (Or.inl ⟨f, h.chip, h.bit, h.frame, h.upd, h.ntf, h.total, h.invalid, h.dev⟩)
  · exact Or.inr (Or.inr ⟨f, h.sync, h.valid, h.chip, h.bit, h.frame, h.upd, h.ntf, h.total, h.invalid, h.dev⟩)

/-- A step on a record that is no RESET has one of the three outcomes, at the record's time, and its output record shows
the counters as they stand at the end. -/
theorem step_frameEvent {s : State} {r : InRecord} {rest : List InRecord} (hd : s.direct = none)
    (hi : s.inputs = r :: rest) (hr : r.rst = false) :
    ∃ t, step s = .next t ∧ FrameEvent Config.hsm r.now s t ∧
      t.out.cntTotal = t.cntTotal ∧ t.out.cntInvalid = t.cntInvalid := by
  refine ⟨_, step_eq_of_record hd hi, ?_, rfl, rfl⟩
  rw [hr]
  exact (opOf_ctlInstr_frameEvent r.sym (fetched_out s r.now rest)).finish.of_same rfl rfl rfl

/-! The obligations. -/

/-- Settles O8: a RESET record leaves a blank record, and each of the three frame outcomes is causal. -/
theorem eventsOfAStepAreCausal : Obligations.EventsOfAStepAreCausal := by
  unfold Obligations.EventsOfAStepAreCausal
  rintro s ⟨rst, sym, now⟩ rest hd hi
  cases rst with
  | true =>
    refine ⟨_, resetRecordGivesTheResetState s sym now rest hd hi, fun _ => ⟨rfl, rfl, rfl, rfl, rfl⟩, ?_⟩
    simp [State.reset, OutRecord.blank]
  | false =>
    obtain ⟨t, hstep, hevent, -, -⟩ := step_frameEvent hd hi rfl
    refine ⟨t, hstep, fun h => absurd h Bool.false_ne_true, ?_⟩
    obtain h | ⟨f, h⟩ | ⟨f, h⟩ := hevent
    · simpa [h.frame, h.upd, h.ntf] using h.chain
    · simp [h.chip, h.bit, h.frame, h.upd, h.ntf]
    · simpa [h.chip, h.bit, h.frame, h.upd, eq_comm] using h.ntf

/-- Settles O9: the counters of the three frame outcomes. -/
theorem countersFollowTheFrameOutcome : Obligations.CountersFollowTheFrameOutcome := by
  unfold Obligations.CountersFollowTheFrameOutcome
  intro s r rest hd hi hr
  obtain ⟨t, hstep, hevent, htotal, hinvalid⟩ := step_frameEvent hd hi hr
  refine ⟨t, hstep, ?_⟩
  obtain h | ⟨f, h⟩ | ⟨f, h⟩ := hevent <;> simp [h.frame, h.total, h.invalid, htotal, hinvalid]

/-- Settles O10: only the valid outcome writes the table, at the serial of its frame. -/
theorem devicesChangeOnlyByValidFrames : Obligations.DevicesChangeOnlyByValidFrames := by
  unfold Obligations.DevicesChangeOnlyByValidFrames
  intro s r rest hd hi hr
  obtain ⟨t, hstep, hevent, -, -⟩ := step_frameEvent hd hi hr
  refine ⟨t, hstep, ?_⟩
  obtain h | ⟨f, h⟩ | ⟨f, h⟩ := hevent
  · exact ⟨fun _ => h.dev, fun a st hupd => by simp [h.upd] at hupd⟩
  · exact ⟨fun _ => h.dev, fun a st hupd => by simp [h.upd] at hupd⟩
  · refine ⟨fun hnone => by simp [h.upd] at hnone, fun a st hupd => ?_⟩
    obtain ⟨rfl, rfl⟩ : serialOf f = a ∧ statusOf f = st := by simpa [h.upd] using hupd
    have hsame := (congrArg (·.read (serialOf f)) h.dev).trans (Memory.read_write_same _ _ _)
    refine ⟨f, h.frame, h.sync, beq_iff_eq.1 h.valid, rfl, rfl, ?_, ?_, ?_, fun b hb => ?_⟩
    · rw [hsame, trackEntry_valid, sighted_valid]
    · rw [hsame, trackEntry_lastRawState]
    · rw [hsame, trackEntry_lastUpdateTime]
    · rw [h.dev, Memory.read_write_other _ _ hb]

/-! The time input (R83). -/

/-- The state at another time input. -/
def atTime (s : State) (now : Time) : State := { s with now := now }

/-- t' differs from t at most in the time input, and in what an UPDATE writes if t shows one: its entry and the
notification. -/
structure TimeBlind (now : Time) (t t' : State) : Prop where
  same : t.out.upd = none → t' = atTime t now
  rest : { t' with dev := t.dev, out := { t'.out with ntf := t.out.ntf } } = atTime t now
  other : ∀ a st, t.out.upd = some (a, st) → ∀ b, b ≠ a → t'.dev.read b = t.dev.read b

theorem TimeBlind.refl (now : Time) (t : State) : TimeBlind now t (atTime t now) :=
  ⟨fun _ => rfl, rfl, fun _ _ _ _ _ => rfl⟩

/-- UPDATE of the serial its state already shows (R178). -/
theorem opUpdate_timeBlind {c : Config} {a : Serial} {st : Status} {s : State} (hs : s.out.upd = some (a, st))
    (now : Time) : TimeBlind now (opUpdate c a st s) (opUpdate c a st (atTime s now)) := by
  have hupd : (opUpdate c a st s).out.upd = some (a, st) := by rw [opUpdate_eq]; exact hs
  refine ⟨fun h => ?_, ?_, fun b st' h b' hb => ?_⟩
  · rw [hupd] at h
    cases h
  · rw [opUpdate_eq, opUpdate_eq]
    rfl
  · obtain ⟨rfl, rfl⟩ : a = b ∧ st = st' := by simpa [hupd] using h
    rw [opUpdate_read_other c _ _ hb, opUpdate_read_other c _ _ hb]
    rfl

theorem fvFrame_timeBlind (c : Config) (f : Frame) (s : State) (now : Time) :
    TimeBlind now (fvFrame c f s) (fvFrame c f (atTime s now)) := by
  cases h : frameValid c f
  · rw [fvFrame_of_invalid h, fvFrame_of_invalid h]
    exact TimeBlind.refl now _
  · rw [fvFrame_of_valid h, fvFrame_of_valid h]
    exact opUpdate_timeBlind rfl now

theorem fsBit_timeBlind (c : Config) (b : Bool) (s : State) (now : Time) :
    TimeBlind now (fsBit c b s) (fsBit c b (atTime s now)) := by
  by_cases h : syncOf (shiftIn s.fsShreg b) = c.syncPattern
  · rw [fsBit_of_match h, fsBit_of_match (s := atTime s now) h]
    exact fvFrame_timeBlind c _ _ now
  · rw [fsBit_of_no_match h, fsBit_of_no_match (s := atTime s now) h]
    exact TimeBlind.refl now _

theorem callChip_timeBlind (c : Config) (v : Bool) (s : State) (now : Time) :
    TimeBlind now (callChip c v s) (callChip c v (atTime s now)) := by
  cases h : s.ldState
  · rw [callChip_of_lowA v h, callChip_of_lowA (s := atTime s now) v h]
    exact TimeBlind.refl now _
  · rw [callChip_of_lowB v h, callChip_of_lowB (s := atTime s now) v h]
    exact fsBit_timeBlind c false _ now
  · rw [callChip_of_highA v h, callChip_of_highA (s := atTime s now) v h]
    exact TimeBlind.refl now _
  · rw [callChip_of_highB v h, callChip_of_highB (s := atTime s now) v h]
    exact fsBit_timeBlind c true _ now

theorem erSample_timeBlind (c : Config) (v : Bool) (s : State) (now : Time) :
    TimeBlind now (erSample c v s) (erSample c v (atTime s now)) := by
  cases h : midChip c (nextRun v s)
  · rw [erSample_of_no_chip h, erSample_of_no_chip (s := atTime s now) h]
    exact TimeBlind.refl now _
  · rw [erSample_of_chip h, erSample_of_chip (s := atTime s now) h]
    exact callChip_timeBlind c v _ now

theorem opOf_ctlInstr_timeBlind (rst : Bool) (sym : BitVec 8) (s : State) (now : Time) :
    TimeBlind now (opOf (ctlInstr rst sym) s) (opOf (ctlInstr rst sym) (atTime s now)) := by
  obtain ⟨-, h⟩ | ⟨-, ⟨-, h⟩ | ⟨-, h⟩ | ⟨-, h⟩⟩ := ctlInstr_cases rst sym <;> rw [h]
  · exact TimeBlind.refl now _
  · exact erSample_timeBlind Config.hsm false s now
  · exact erSample_timeBlind Config.hsm true s now
  · exact TimeBlind.refl now s

/-- Settles O11: the record's operation is blind to the time up to its UPDATE, and the end of the step clears the time
input. -/
theorem timeIsSeenOnlyByUpdates : Obligations.TimeIsSeenOnlyByUpdates := by
  unfold Obligations.TimeIsSeenOnlyByUpdates
  intro s r rest now' hd hi
  have hblind := opOf_ctlInstr_timeBlind r.rst r.sym (fetched s r.now rest) now'
  refine ⟨_, _, step_eq_of_record hd hi, step_eq_of_record (r := { r with now := now' }) hd rfl, fun h => ?same, ?rest,
    hblind.other⟩
  case same => exact (congrArg finish (hblind.same h) :)
  case rest => exact (congrArg finish hblind.rest :)

end Sys2Proof.Events
end

section
/-! The Symbol Edge Recognizer: one sample (R111 to R113), runs of samples (R115), and dropped samples (R114). -/

namespace Sys2Proof.Recognizer

open Sys2Proof Sys2Proof.Machine Sys2Proof.Stepping Sys2Proof.Feeding Sys2Proof.LineDecoder

/-! One sample. -/

theorem exec_sampleInstr (v : Bool) (s : State) : exec (sampleInstr v) s = .next (erSample Config.hsm v s) := by
  rw [exec_eq, opOf_sampleInstr]

theorem nextRun_eq_ite (v : Bool) (s : State) : nextRun v s = if s.erPrev = v then s.erRun + 1 else 1 :=
  if_congr eq_comm rfl rfl

/-- `SPB` is 8 and `HALF` is 4 (R9). -/
theorem midChip_hsm_iff (run : Count) : midChip Config.hsm run = true ↔ run.toNat % 8 = 4 := beq_iff_eq

/-- R111 for a sample of level v: the count alone, or in the middle of a period the chip as well. -/
theorem exec_sampleInstr_counts (v : Bool) (s : State) :
    ((nextRun v s).toNat % 8 ≠ 4 →
      exec (sampleInstr v) s = .next { s with erPrev := v, erRun := nextRun v s }) ∧
    ((nextRun v s).toNat % 8 = 4 → ∃ t, exec (sampleInstr v) s = .next t ∧
      exec (chipInstr v) { s with erPrev := v, erRun := nextRun v s, out := { s.out with chip := some v } } = .next t ∧
      t.erPrev = v ∧ t.erRun = nextRun v s ∧ t.out.chip = some v) := by
  constructor
  · intro h
    have hno : midChip Config.hsm (nextRun v s) = false := eq_false_of_ne_true (mt (midChip_hsm_iff _).1 h)
    rw [exec_sampleInstr, erSample_of_no_chip hno]
  · intro h
    obtain ⟨-, her, hchip⟩ := callChip_keeps Config.hsm v
      { s with erPrev := v, erRun := nextRun v s, out := { s.out with chip := some v } }
    refine ⟨_, ?_, exec_chipInstr v _, her.prev, her.run, hchip⟩
    rw [exec_sampleInstr, erSample_of_chip ((midChip_hsm_iff _).2 h)]

/-- Settles O21: the rule of one sample at level 0. -/
theorem sampleZeroCountsAndEmits : Obligations.SampleZeroCountsAndEmits := by
  unfold Obligations.SampleZeroCountsAndEmits
  intro s
  rw [← nextRun_eq_ite false s]
  exact exec_sampleInstr_counts false s

/-- Settles O22: the rule of one sample at level 1. -/
theorem sampleOneCountsAndEmits : Obligations.SampleOneCountsAndEmits := by
  unfold Obligations.SampleOneCountsAndEmits
  intro s
  rw [← nextRun_eq_ite true s]
  exact exec_sampleInstr_counts true s

/-! The place of a sample in its chip period. -/

/-- The next sample of level v is sample k + 1 of its run, counted modulo 8. -/
def Phase (v : Bool) (k : Nat) (s : State) : Prop := (nextRun v s).toNat % 8 = (k + 1) % 8

/-- The wrap of the counter keeps its value modulo 8, since 8 divides 2^32 (R117). -/
theorem toNat_add_one_mod_eight (x : Count) : (x + 1).toNat % 8 = (x.toNat + 1) % 8 := by
  have hadd : (x + 1).toNat = (x.toNat + 1) % 2 ^ 32 := BitVec.toNat_add x 1
  omega

/-- A run begins at a level transition, or at a multiple of 8. -/
theorem phase_zero {v : Bool} {s : State} (h : s.erPrev ≠ v ∨ s.erRun.toNat % 8 = 0) : Phase v 0 s := by
  rw [Phase, nextRun_eq_ite]
  split
  · rename_i hv
    obtain h | h := h
    · exact absurd hv h
    · rw [toNat_add_one_mod_eight]
      omega
  · rfl

/-- A sample of level v moves to the next place. -/
theorem Phase.next {v : Bool} {k : Nat} {s t : State} (h : Phase v k s) (hprev : t.erPrev = v)
    (hrun : t.erRun = nextRun v s) : Phase v (k + 1) t := by
  unfold Phase at h ⊢
  rw [nextRun_eq_ite, if_pos hprev, hrun, toNat_add_one_mod_eight]
  omega

theorem Phase.midChip_iff {v : Bool} {k : Nat} {s : State} (h : Phase v k s) :
    midChip Config.hsm (nextRun v s) = true ↔ (k + 1) % 8 = 4 := by
  rw [midChip_hsm_iff, h]

theorem Phase.erSample {v : Bool} {k : Nat} {s : State} (h : Phase v k s) :
    Phase v (k + 1) (erSample Config.hsm v s) := by
  obtain ⟨-, hprev, hrun⟩ := erSample_keeps Config.hsm v s
  exact h.next hprev hrun

/-- The chip of a sample, by its place. -/
theorem Phase.out_chip {v : Bool} {k : Nat} {s : State} (h : Phase v k s) :
    (Machine.erSample Config.hsm v s).out.chip = if (k + 1) % 8 = 4 then some v else s.out.chip := by
  by_cases hk : (k + 1) % 8 = 4
  · rw [if_pos hk, erSample_of_chip (h.midChip_iff.2 hk)]
    obtain ⟨-, -, hchip⟩ := callChip_keeps Config.hsm v
      { s with erPrev := v, erRun := nextRun v s, out := { s.out with chip := some v } }
    exact hchip
  · rw [if_neg hk, erSample_of_no_chip (eq_false_of_ne_true (mt h.midChip_iff.1 hk))]

/-! Runs of equal samples. -/

theorem feed_samples_chips (v : Bool) (n : Nat) {k : Nat} {s : State} (h : Phase v k s) :
    (feed (List.replicate n (sampleInstr v)) s).1.map (·.chip)
      = (List.range' k n).map (fun j => if (j + 1) % 8 = 4 then some v else none) := by
  induction n generalizing k s with
  | zero => rfl
  | succ n ih =>
    have hblank : Phase v k (s.setOut OutRecord.blank) := h
    rw [List.replicate_succ, feed_cons_records, List.map_cons, opOf_sampleInstr, hblank.out_chip, ih hblank.erSample,
      List.range'_succ, List.map_cons]
    rfl

theorem length_filter_range_mid (n : Nat) :
    ((List.range n).filter (fun k => decide ((k + 1) % 8 = 4))).length = (n + 4) / 8 := by
  induction n with
  | zero => rfl
  | succ n ih =>
    rw [List.range_succ, List.filter_append, List.length_append, ih]
    by_cases h : (n + 1) % 8 = 4 <;> simp [h] <;> omega

/-- The records that show a chip are counted by the list of chips. -/
theorem length_filter_chip (os : List OutRecord) :
    (os.filter (fun o => o.chip.isSome)).length = ((os.map (·.chip)).filter Option.isSome).length := by
  rw [List.filter_map, List.length_map]
  rfl

/-- Settles O25: sample k + 1 of the run stands at place k + 1 of the counter modulo 8. -/
theorem runEmitsOneChipPerPeriod : Obligations.RunEmitsOneChipPerPeriod := by
  unfold Obligations.RunEmitsOneChipPerPeriod
  intro n v s hstart
  have hphase : Phase v 0 s := phase_zero (hstart.imp id fun h => by rw [h]; rfl)
  have hchips := feed_samples_chips v n hphase
  rw [← List.range_eq_range'] at hchips
  refine ⟨hchips, ?_⟩
  rw [length_filter_chip, hchips, List.filter_map, List.length_map, ← length_filter_range_mid]
  refine congrArg List.length (List.filter_congr fun k _ => ?_)
  by_cases h : (k + 1) % 8 = 4 <;> simp [h]

theorem feed_samples_erRun (v : Bool) (n : Nat) (s : State) :
    (feed (List.replicate (n + 1) (sampleInstr v)) s).2.erRun = nextRun v s + BitVec.ofNat 32 n := by
  induction n generalizing s with
  | zero =>
    obtain ⟨-, -, hrun⟩ := erSample_keeps Config.hsm v (s.setOut OutRecord.blank)
    rw [List.replicate_succ, feed_cons_state, opOf_sampleInstr]
    exact hrun.trans (BitVec.add_zero _).symm
  | succ n ih =>
    obtain ⟨-, hprev, hrun⟩ := erSample_keeps Config.hsm v (s.setOut OutRecord.blank)
    rw [List.replicate_succ, feed_cons_state, opOf_sampleInstr, ih, nextRun_eq_ite, if_pos hprev, hrun,
      BitVec.add_assoc, Nat.add_comm n 1, BitVec.ofNat_add]
    rfl

/-! Dropped samples. -/

/-- A dropped sample between operations shows a blank record and nothing else. -/
theorem feed_symx_cons (sym : BitVec 8) (i : Instr) (is : List Instr) (s : State) :
    feed (.symx sym :: i :: is) s = (OutRecord.blank :: (feed (i :: is) s).1, (feed (i :: is) s).2) := by
  rw [feed_cons, feed_cons i, feed_cons i]
  rfl

theorem feed_replicate_symx (sym : BitVec 8) (n : Nat) (s : State) :
    (feed (List.replicate n (.symx sym)) s).2.setOut s.out = s := by
  induction n generalizing s with
  | zero => rfl
  | succ n ih => exact (congrArg (State.setOut · s.out) (ih (s.setOut OutRecord.blank)) :)

/-- A dropped sample inside a run of ones: the records of the run with a blank one put in, and the state of the run. -/
theorem feed_ones_with_symx (sym : BitVec 8) (s : State) : ∃ o₁ o₂ o₃ o₄,
    (feed (List.replicate 4 (sampleInstr true)) s).1 = [o₁, o₂, o₃, o₄] ∧
    feed [.sym1, .sym1, .symx sym, .sym1, .sym1] s
      = ([o₁, o₂, OutRecord.blank, o₃, o₄], (feed [.sym1, .sym1, .sym1, .sym1] s).2) := by
  refine ⟨_, _, _, _, rfl, ?_⟩
  rw [feed_cons, feed_cons, feed_symx_cons]
  rfl

/-- Settles O23: SYMX decodes from each such sample and is the identity, so that a run goes on behind it. -/
theorem invalidSampleIsDropped : Obligations.InvalidSampleIsDropped := by
  unfold Obligations.InvalidSampleIsDropped
  intro sym hsym
  have hctl := ctlInstr_of_invalid hsym
  refine ⟨?decode, fun s => exec_eq (.symx sym) s, fun s now rest hd hi => ?step,
    fun n s => feed_replicate_symx sym n s, fun s hprev hrun => ?run⟩
  case decode => rw [decode_ctl, hctl]
  case step =>
    rw [step_eq_of_record hd hi, hctl]
    rfl
  case run =>
    obtain ⟨o₁, o₂, o₃, o₄, hrecords, hfeed⟩ := feed_ones_with_symx sym s
    have hphase : Phase true 0 s := phase_zero (Or.inl (by rw [hprev]; decide))
    have hchips := feed_samples_chips true 4 hphase
    obtain ⟨h₁, h₂, h₃, h₄⟩ : o₁.chip = none ∧ o₂.chip = none ∧ o₃.chip = none ∧ o₄.chip = some true := by
      rw [hrecords] at hchips
      simpa [List.range'] using hchips
    have herRun : (feed [.sym1, .sym1, .sym1, .sym1] s).2.erRun = 4 := by
      refine (feed_samples_erRun true 3 s).trans ?_
      rw [nextRun_eq_ite, hprev]
      rfl
    rw [hfeed]
    exact ⟨by simp [h₁, h₂, h₃, h₄, OutRecord.blank], herRun, rfl⟩

end Sys2Proof.Recognizer
end

section
/-! Runs of steps with the records they show (R311), and what a run does not depend on: the run counter beyond its value
modulo 8 (R117), and dropped samples (R263). -/

namespace Sys2Proof.Runs

open Sys2Proof Sys2Proof.Machine Sys2Proof.Stepping

/-! Runs. -/

/-- n steps from s complete, show the records os, and end in t. -/
def RunShows (n : Nat) (s : State) (os : List OutRecord) (t : State) : Prop :=
  Host.Core.run core n s = .next t ∧ observe n s = os

theorem RunShows.refl (s : State) : RunShows 0 s [] s := ⟨rfl, rfl⟩

theorem observe_succ_of_step {s t : State} (h : step s = .next t) (n : Nat) :
    observe (n + 1) s = t.out :: observe n t := by
  rw [observe, h]

theorem RunShows.cons {n : Nat} {s t u : State} {os : List OutRecord} (h : step s = .next t)
    (hrun : RunShows n t os u) : RunShows (n + 1) s (t.out :: os) u := by
  obtain ⟨hend, hshow⟩ := hrun
  exact ⟨(Completion.run_succ_of_step (M := core) h n).trans hend, by rw [observe_succ_of_step h, hshow]⟩

theorem run_succ_of_refused {M : Host.Core} {s : M.State} {r : M.Refusal} (h : M.step s = .refused r) (n : Nat) :
    M.run (n + 1) s = .refused r := by
  rw [Host.Core.run, h]

/-- A run's first step and the run behind it. -/
theorem RunShows.exists_of_succ {n : Nat} {s u : State} {os : List OutRecord} (h : RunShows (n + 1) s os u) :
    ∃ t os', step s = .next t ∧ os = t.out :: os' ∧ RunShows n t os' u := by
  obtain ⟨hend, rfl⟩ := h
  cases hs : step s with
  | next t =>
    exact ⟨t, _, rfl, observe_succ_of_step hs n, (Completion.run_succ_of_step (M := core) hs n).symm.trans hend, rfl⟩
  | fault r => cases r
  | refused r =>
    have hstop := (run_succ_of_refused (M := core) hs n).symm.trans hend
    cases hstop

theorem RunShows.trans {m n : Nat} {s t u : State} {os os' : List OutRecord} (h : RunShows m s os t)
    (h' : RunShows n t os' u) : RunShows (m + n) s (os ++ os') u := by
  induction m generalizing s os with
  | zero =>
    obtain ⟨hend, rfl⟩ := h
    obtain rfl : s = t := Host.Outcome.next.inj hend
    rwa [Nat.zero_add]
  | succ m ih =>
    obtain ⟨v, os₁, hstep, rfl, hrun⟩ := h.exists_of_succ
    rw [Nat.add_right_comm]
    exact RunShows.cons hstep (ih hrun)

/-! The run counter and the waiting records are read by the recognizer and by the fetch alone. -/

/-- The state with another run counter and other records waiting. -/
def withSource (s : State) (run : Count) (ins : List InRecord) : State := { s with erRun := run, inputs := ins }

section
variable (c : Config) (s : State) (run : Count) (ins : List InRecord)

theorem opUpdate_withSource (a : Serial) (st : Status) :
    opUpdate c a st (withSource s run ins) = withSource (opUpdate c a st s) run ins := by
  rw [opUpdate_eq, opUpdate_eq]
  rfl

theorem fvFrame_withSource (f : Frame) :
    fvFrame c f (withSource s run ins) = withSource (fvFrame c f s) run ins := by
  cases h : frameValid c f
  · rw [fvFrame_of_invalid h, fvFrame_of_invalid h]
    rfl
  · rw [fvFrame_of_valid h, fvFrame_of_valid h, ← opUpdate_withSource]
    rfl

theorem fsBit_withSource (b : Bool) : fsBit c b (withSource s run ins) = withSource (fsBit c b s) run ins := by
  by_cases h : syncOf (shiftIn s.fsShreg b) = c.syncPattern
  · rw [fsBit_of_match h, fsBit_of_match (s := withSource s run ins) h, ← fvFrame_withSource]
    rfl
  · rw [fsBit_of_no_match h, fsBit_of_no_match (s := withSource s run ins) h]
    rfl

theorem callChip_withSource (v : Bool) :
    callChip c v (withSource s run ins) = withSource (callChip c v s) run ins := by
  obtain ⟨l, h | h⟩ := LineDecoder.ldState_cases s.ldState
  · rw [LineDecoder.callChip_of_levelState v h, LineDecoder.callChip_of_levelState (s := withSource s run ins) v h]
    rfl
  · rw [LineDecoder.callChip_of_phaseB v h, LineDecoder.callChip_of_phaseB (s := withSource s run ins) v h,
      ← fsBit_withSource]
    rfl

end

/-- Two values of the run counter that no output tells apart (R117). -/
def CountsAlike (x y : Count) : Prop := x.toNat % 8 = y.toNat % 8

theorem nextRun_alike {s : State} {x : Count} (h : CountsAlike x s.erRun) (v : Bool) (ins : List InRecord) :
    CountsAlike (nextRun v (withSource s x ins)) (nextRun v s) := by
  unfold CountsAlike at h ⊢
  rw [Recognizer.nextRun_eq_ite, Recognizer.nextRun_eq_ite]
  by_cases hv : s.erPrev = v
  · rw [if_pos hv, if_pos (show (withSource s x ins).erPrev = v from hv), Recognizer.toNat_add_one_mod_eight,
      Recognizer.toNat_add_one_mod_eight, show (withSource s x ins).erRun = x from rfl]
    omega
  · rw [if_neg hv, if_neg (show ¬ (withSource s x ins).erPrev = v from hv)]

theorem midChip_alike {x y : Count} (h : CountsAlike x y) : midChip Config.hsm x = midChip Config.hsm y := by
  rw [Bool.eq_iff_iff, Recognizer.midChip_hsm_iff, Recognizer.midChip_hsm_iff, h]

/-- A sample sees the run counter modulo 8 only. -/
theorem erSample_withSource {s : State} {x : Count} (h : CountsAlike x s.erRun) (v : Bool) (ins : List InRecord) :
    erSample Config.hsm v (withSource s x ins)
      = withSource (erSample Config.hsm v s) (nextRun v (withSource s x ins)) ins := by
  have hmid := midChip_alike (nextRun_alike h v ins)
  cases hm : midChip Config.hsm (nextRun v s)
  · rw [erSample_of_no_chip hm, erSample_of_no_chip (hmid.trans hm)]
    rfl
  · rw [erSample_of_chip hm, erSample_of_chip (hmid.trans hm), ← callChip_withSource]
    rfl

/-- Every operation commutes with a change of the waiting records and an alike change of the run counter. -/
theorem opOf_withSource {s : State} {x : Count} (h : CountsAlike x s.erRun) (i : Instr) (ins : List InRecord) :
    ∃ y, CountsAlike y (opOf i s).erRun ∧ opOf i (withSource s x ins) = withSource (opOf i s) y ins := by
  have hkept : ∀ {t : State}, Frames.SameRecognizer s t → CountsAlike x t.erRun := fun ht => ht.2.1.symm ▸ h
  have hsample : ∀ v, ∃ y, CountsAlike y (erSample Config.hsm v s).erRun ∧
      erSample Config.hsm v (withSource s x ins) = withSource (erSample Config.hsm v s) y ins := fun v => by
    obtain ⟨-, -, hrun⟩ := erSample_keeps Config.hsm v s
    exact ⟨_, hrun.symm ▸ nextRun_alike h v ins, erSample_withSource h v ins⟩
  cases i with
  | reset sym => exact ⟨0, rfl, rfl⟩
  | sym0 => exact hsample false
  | sym1 => exact hsample true
  | symx sym => exact ⟨x, h, rfl⟩
  | chip0 => exact ⟨x, hkept (Frames.callChip_sameRecognizer _ _ s), callChip_withSource _ s x ins false⟩
  | chip1 => exact ⟨x, hkept (Frames.callChip_sameRecognizer _ _ s), callChip_withSource _ s x ins true⟩
  | bit0 => exact ⟨x, hkept (Frames.fsBit_sameRecognizer _ _ s), fsBit_withSource _ s x ins false⟩
  | bit1 => exact ⟨x, hkept (Frames.fsBit_sameRecognizer _ _ s), fsBit_withSource _ s x ins true⟩
  | frameAlt f => exact ⟨x, hkept (Frames.fvFrame_sameRecognizer _ f s), fvFrame_withSource _ s x ins f⟩
  | frameDef f => exact ⟨x, hkept (Frames.fvFrame_sameRecognizer _ f s), fvFrame_withSource _ s x ins f⟩
  | update a st => exact ⟨x, hkept (Frames.opUpdate_sameRecognizer _ a st s), opUpdate_withSource _ s x ins a st⟩

/-! The run counter modulo 8 (R117). -/

theorem step_of_undecodable {s : State} {w : OpWord} {e : DecodeError} (hd : s.direct = some w)
    (hw : decode Config.hsm w = .error e) : step s = .refused (.noOperation w.fmt) := by
  simp only [step, fetch, hd, hw]

/-- s' is s but for the run counter, which no output tells from that of s. -/
def Alike (s s' : State) : Prop := ∃ x, CountsAlike x s.erRun ∧ s' = { s with erRun := x }

theorem Alike.opOf {s s' : State} (h : Alike s s') (i : Instr) : Alike (opOf i s) (opOf i s') := by
  obtain ⟨x, hx, rfl⟩ := h
  obtain ⟨y, hy, heq⟩ := opOf_withSource hx i s.inputs
  refine ⟨y, hy, heq.trans ?_⟩
  rw [← (Completion.opOf_sameHost i s).inputs]
  rfl

theorem Alike.finish {s s' : State} (h : Alike s s') : Alike (finish s) (finish s') := by
  obtain ⟨x, hx, rfl⟩ := h
  exact ⟨x, hx, rfl⟩

/-- Alike states step to alike states, or both to the same refusal. -/
theorem step_alike {s s' : State} (h : Alike s s') :
    (∃ t t', Alike t t' ∧ step s = .next t ∧ step s' = .next t') ∨
    (∃ r, step s = .refused r ∧ step s' = .refused r) := by
  obtain ⟨x, hx, hs'⟩ := h
  have hdirect : s'.direct = s.direct := by rw [hs']
  have hinputs : s'.inputs = s.inputs := by rw [hs']
  cases hd : s.direct with
  | none =>
    cases hi : s.inputs with
    | nil =>
      have hidle : Alike (idle s) (idle s') := ⟨x, hx, by rw [hs']; rfl⟩
      exact Or.inl ⟨_, _, hidle, step_of_none hd hi, step_of_none (hdirect.trans hd) (hinputs.trans hi)⟩
    | cons r rest =>
      have hfetched : Alike (fetched s r.now rest) (fetched s' r.now rest) := ⟨x, hx, by rw [hs']; rfl⟩
      exact Or.inl ⟨_, _, (hfetched.opOf _).finish, step_eq_of_record hd hi,
        step_eq_of_record (hdirect.trans hd) (hinputs.trans hi)⟩
  | some w =>
    cases hw : decode Config.hsm w with
    | ok i =>
      have hhanded : Alike { s with direct := none, out := OutRecord.blank }
          { s' with direct := none, out := OutRecord.blank } := ⟨x, hx, by rw [hs']⟩
      exact Or.inl ⟨_, _, (hhanded.opOf i).finish, step_of_direct hd hw, step_of_direct (hdirect.trans hd) hw⟩
    | error e => exact Or.inr ⟨_, step_of_undecodable hd hw, step_of_undecodable (hdirect.trans hd) hw⟩

theorem observe_of_refused {s : State} {r : Refusal} (h : step s = .refused r) (n : Nat) : observe (n + 1) s = [] := by
  rw [observe, h]

theorem observe_alike (n : Nat) {s s' : State} (h : Alike s s') : observe n s' = observe n s := by
  induction n generalizing s s' with
  | zero => rfl
  | succ n ih =>
    obtain ⟨t, t', halike, hs, hs'⟩ | ⟨r, hs, hs'⟩ := step_alike h
    · rw [observe_succ_of_step hs, observe_succ_of_step hs', ih halike]
      obtain ⟨y, -, rfl⟩ := halike
      rfl
    · rw [observe_of_refused hs, observe_of_refused hs']

/-- Settles O26: alike states step to alike states, which show the same record. -/
theorem onlyTheRunCountModuloEightIsVisible : Obligations.OnlyTheRunCountModuloEightIsVisible := by
  unfold Obligations.OnlyTheRunCountModuloEightIsVisible
  exact fun n s x h => observe_alike n ⟨x, h, rfl⟩

/-! Dropped samples in a stream (R114, R263). -/

theorem opOf_erRun_congr {s s' : State} (hprev : s'.erPrev = s.erPrev) (hrun : s'.erRun = s.erRun) (i : Instr) :
    (opOf i s').erRun = (opOf i s).erRun := by
  have hsample : ∀ v, (erSample Config.hsm v s').erRun = (erSample Config.hsm v s).erRun := fun v => by
    obtain ⟨-, -, h⟩ := erSample_keeps Config.hsm v s
    obtain ⟨-, -, h'⟩ := erSample_keeps Config.hsm v s'
    rw [h, h', nextRun, nextRun, hprev, hrun]
  by_cases hreset : isReset i = true
  · cases i with
    | reset sym => rfl
    | _ => cases hreset
  · have hkept := fun h0 h1 (u : State) =>
      (Frames.opOf_sameRecognizer (eq_false_of_ne_true hreset) h0 h1 u).2.1
    by_cases h0 : i = .sym0
    · rw [h0]; exact hsample false
    · by_cases h1 : i = .sym1
      · rw [h1]; exact hsample true
      · rw [hkept h0 h1, hkept h0 h1, hrun]

/-- Every operation commutes with a change of the waiting records alone. -/
theorem opOf_with_inputs (i : Instr) (s : State) (ins : List InRecord) :
    opOf i { s with inputs := ins } = { opOf i s with inputs := ins } := by
  obtain ⟨y, -, heq⟩ := opOf_withSource (s := s) (x := s.erRun) rfl i ins
  have hrun : (opOf i (withSource s s.erRun ins)).erRun = (opOf i s).erRun :=
    opOf_erRun_congr (s := s) (s' := withSource s s.erRun ins) rfl rfl i
  have hy : y = (opOf i s).erRun := (congrArg State.erRun heq).symm.trans hrun
  subst hy
  exact heq

/-- Two states agree on every register and entry, and on the place of a handed operation. -/
def SameRegisters (s s' : State) : Prop := s' = { s with inputs := s'.inputs, now := s'.now, out := s'.out }

/-- The record is kept when the dropped samples are taken out. -/
def kept (r : InRecord) : Bool := !r.isInvalid

theorem ctlInstr_of_not_kept {r : InRecord} (h : kept r = false) : ctlInstr r.rst r.sym = .symx r.sym := by
  obtain ⟨hrst, hsym⟩ : r.rst = false ∧ 2 ≤ r.sym.toNat := by simpa [kept, InRecord.isInvalid] using h
  rw [hrst, ctlInstr_of_invalid hsym]

/-- A dropped sample leaves every register. -/
theorem step_of_not_kept {s : State} {r : InRecord} {rest : List InRecord} (hd : s.direct = none)
    (hi : s.inputs = r :: rest) (hr : kept r = false) : step s = .next (finish (fetched s r.now rest)) := by
  rw [step_eq_of_record hd hi, ctlInstr_of_not_kept hr]
  rfl

/-- On the same record, states with the same registers step to such states and show the same output record. -/
theorem step_of_sameRegisters {s s' : State} {r : InRecord} {rest rest' : List InRecord} (h : SameRegisters s s')
    (hd : s.direct = none) (hi : s.inputs = r :: rest) (hi' : s'.inputs = r :: rest') :
    ∃ t t', step s = .next t ∧ step s' = .next t' ∧ t' = { t with inputs := rest' } ∧ t.direct = none ∧
      t.inputs = rest := by
  have hd' : s'.direct = none := (congrArg State.direct h).trans hd
  have hfetched : fetched s' r.now rest' = { fetched s r.now rest with inputs := rest' } := by
    rw [h]
    rfl
  obtain ⟨hinputs, hdirect, -⟩ := Completion.opOf_sameHost (ctlInstr r.rst r.sym) (fetched s r.now rest)
  refine ⟨_, _, step_eq_of_record hd hi, step_eq_of_record hd' hi', ?_, hdirect.trans hd, hinputs⟩
  rw [hfetched, opOf_with_inputs]
  rfl

/-- A stream and the same stream without its dropped samples, from states with the same registers. -/
theorem runShows_without_dropped (ins : List InRecord) {s s' : State} (hd : s.direct = none) (hi : s.inputs = ins)
    (hi' : s'.inputs = ins.filter kept) (h : SameRegisters s s') :
    ∃ os t t', RunShows ins.length s os t ∧
      RunShows (ins.filter kept).length s' (((ins.zip os).filter (fun p => kept p.1)).map Prod.snd) t' ∧
      SameRegisters t t' := by
  induction ins generalizing s s' with
  | nil => exact ⟨[], s, s', RunShows.refl s, RunShows.refl s', h⟩
  | cons r rest ih =>
    cases hr : kept r
    · have hstep := step_of_not_kept hd hi hr
      rw [List.filter_cons_of_neg (by simp [hr])] at hi' ⊢
      have hsame : SameRegisters (finish (fetched s r.now rest)) s' := h
      obtain ⟨os, t, t', hrun, hrun', ht⟩ := ih (s := finish (fetched s r.now rest)) hd rfl hi' hsame
      refine ⟨_, t, t', RunShows.cons hstep hrun, ?_, ht⟩
      rwa [List.zip_cons_cons, List.filter_cons_of_neg (by simp [hr])]
    · rw [List.filter_cons_of_pos hr] at hi' ⊢
      obtain ⟨u, u', hstep, hstep', rfl, hud, hui⟩ := step_of_sameRegisters h hd hi hi'
      obtain ⟨os, t, t', hrun, hrun', ht⟩ := ih (s' := { u with inputs := rest.filter kept }) hud hui rfl rfl
      refine ⟨_, t, t', RunShows.cons hstep hrun, ?_, ht⟩
      rw [List.zip_cons_cons, List.filter_cons_of_pos (by simpa using hr)]
      exact (RunShows.cons hstep' hrun' :)

/-- Settles O24: the stream and the kept stream begin with the same registers. -/
theorem invalidSamplesAreInvisibleInAStream : Obligations.InvalidSamplesAreInvisibleInAStream := by
  unfold Obligations.InvalidSamplesAreInvisibleInAStream
  intro s hd ins
  obtain ⟨os, t, t', ⟨hend, hshow⟩, ⟨hend', hshow'⟩, h⟩ :=
    runShows_without_dropped s.inputs (s' := { s with inputs := ins }) hd rfl rfl rfl
  refine ⟨t, t', hend, hend', ?_, ?_, ?_, ?_, ?_, ?_, ?_, ?shown⟩
  case shown => rw [hshow]; exact hshow'
  all_goals rw [h]

end Sys2Proof.Runs
end

section
/-! The pipeline from samples to devices (R98): the samples of a chip, the chips of a bit, the bits of a frame. -/

namespace Sys2Proof.FrameStream

open Sys2Proof Sys2Proof.Machine Sys2Proof.Stepping Sys2Proof.LineDecoder Sys2Proof.FrameSync Sys2Proof.Recognizer
  Sys2Proof.Runs Sys2Proof.DeviceTracker

/-! One sample. -/

/-- Two states agree on the registers and the table behind the recognizer. -/
structure SameBlock (s t : State) : Prop where
  ldState : t.ldState = s.ldState
  fsShreg : t.fsShreg = s.fsShreg
  total : t.cntTotal = s.cntTotal
  invalid : t.cntInvalid = s.cntInvalid
  dev : t.dev = s.dev

theorem SameBlock.refl (s : State) : SameBlock s s := ⟨rfl, rfl, rfl, rfl, rfl⟩

theorem SameBlock.trans {s t u : State} (h : SameBlock s t) (h' : SameBlock t u) : SameBlock s u :=
  ⟨h'.ldState.trans h.ldState, h'.fsShreg.trans h.fsShreg, h'.total.trans h.total, h'.invalid.trans h.invalid,
    h'.dev.trans h.dev⟩

theorem SameBlock.setLd {s t : State} (h : SameBlock s t) (l : LdState) : SameBlock (s.setLd l) (t.setLd l) :=
  ⟨rfl, h.fsShreg, h.total, h.invalid, h.dev⟩

/-- The records `ins` are waiting, no operation is handed over, and the next sample of level v stands at place k + 1 of
its run. -/
structure InRun (v : Bool) (k : Nat) (ins : List InRecord) (s : State) : Prop where
  direct : s.direct = none
  inputs : s.inputs = ins
  phase : Phase v k s

theorem ctlInstr_sampleRecord (v : Bool) (now : Time) :
    ctlInstr (sampleRecord v now).rst (sampleRecord v now).sym = sampleInstr v := by
  cases v <;> rfl

section
variable {v : Bool} {k : Nat} {now : Time} {rest : List InRecord} {s : State}

theorem step_of_sample (h : InRun v k (sampleRecord v now :: rest) s) :
    step s = .next (finish (erSample Config.hsm v (fetched s now rest))) := by
  rw [step_eq_of_record h.direct h.inputs, ctlInstr_sampleRecord, Feeding.opOf_sampleInstr]
  rfl

/-- A sample of the run takes the run one place on. -/
theorem inRun_of_sample (h : InRun v k (sampleRecord v now :: rest) s) :
    InRun v (k + 1) rest (finish (erSample Config.hsm v (fetched s now rest))) ∧
    (finish (erSample Config.hsm v (fetched s now rest))).erPrev = v := by
  have hphase : Phase v k (fetched s now rest) := h.phase
  obtain ⟨hhost, hprev, -⟩ := erSample_keeps Config.hsm v (fetched s now rest)
  exact ⟨⟨hhost.direct.trans h.direct, hhost.inputs, hphase.erSample⟩, hprev⟩

/-- A sample at a place where no chip is emitted. -/
theorem quiet_sample (h : InRun v k (sampleRecord v now :: rest) s) (hk : (k + 1) % 8 ≠ 4) :
    ∃ t, step s = .next t ∧ t.out.frame = .none ∧ SameBlock s t ∧ InRun v (k + 1) rest t ∧ t.erPrev = v := by
  have hphase : Phase v k (fetched s now rest) := h.phase
  have hno : midChip Config.hsm (nextRun v (fetched s now rest)) = false :=
    eq_false_of_ne_true (mt hphase.midChip_iff.1 hk)
  refine ⟨_, step_of_sample h, ?_, ?_, inRun_of_sample h⟩
  · rw [erSample_of_no_chip hno]
    rfl
  · rw [erSample_of_no_chip hno]
    exact ⟨rfl, rfl, rfl, rfl, rfl⟩

/-- The sample in the middle of a chip period hands its chip on, in a state u with the same block. -/
theorem mid_sample (h : InRun v k (sampleRecord v now :: rest) s) (hk : (k + 1) % 8 = 4) :
    ∃ u t, u.now = now ∧ u.out.frame = .none ∧ SameBlock s u ∧ step s = .next t ∧
      t.out.frame = (callChip Config.hsm v u).out.frame ∧ SameBlock (callChip Config.hsm v u) t ∧
      InRun v (k + 1) rest t ∧ t.erPrev = v := by
  have hphase : Phase v k (fetched s now rest) := h.phase
  have hchip := erSample_of_chip (hphase.midChip_iff.2 hk)
  refine ⟨_, _, ?now, ?frame, ?block, step_of_sample h, congrArg (·.out.frame) hchip, ?after, inRun_of_sample h⟩
  case now => rfl
  case frame => rfl
  case block => exact ⟨rfl, rfl, rfl, rfl, rfl⟩
  case after =>
    rw [hchip]
    exact ⟨rfl, rfl, rfl, rfl, rfl⟩

end

/-! The eight samples of one chip. -/

/-- m samples at places where no chip is emitted. -/
theorem quiet_samples {v : Bool} {now : Time} {rest : List InRecord} (m : Nat) {k : Nat} {s : State}
    (h : InRun v k (List.replicate m (sampleRecord v now) ++ rest) s)
    (hquiet : ∀ j, k < j → j ≤ k + m → j % 8 ≠ 4) :
    ∃ os t, RunShows m s os t ∧ os.map (·.frame) = List.replicate m .none ∧ SameBlock s t ∧
      InRun v (k + m) rest t ∧ (s.erPrev = v → t.erPrev = v) := by
  induction m generalizing k s with
  | zero => exact ⟨[], s, RunShows.refl s, rfl, SameBlock.refl s, h, id⟩
  | succ m ih =>
    obtain ⟨t, hstep, hframe, hblock, hrun, hprev⟩ := quiet_sample h (hquiet (k + 1) (by omega) (by omega))
    obtain ⟨os, u, hshows, hframes, hblock', hrun', hprev'⟩ := ih hrun fun j hj hj' => hquiet j (by omega) (by omega)
    refine ⟨_, u, RunShows.cons hstep hshows, ?_, hblock.trans hblock', ?_, fun _ => hprev' hprev⟩
    · rw [List.map_cons, hframe, hframes, List.replicate_succ]
    · rwa [Nat.add_right_comm] at hrun'

/-- After a whole chip period the run counter stands at a multiple of 8. -/
theorem erRun_of_whole_period {v : Bool} {ins : List InRecord} {s : State} (h : InRun v 8 ins s)
    (hprev : s.erPrev = v) : s.erRun.toNat % 8 = 0 := by
  have hphase := h.phase
  rw [Phase, nextRun_eq_ite, if_pos hprev, toNat_add_one_mod_eight] at hphase
  omega

/-- The eight samples of a chip hand it on at the fourth, and end at a multiple of 8. -/
theorem chip_period {v : Bool} {now : Time} {rest : List InRecord} {s : State}
    (h : InRun v 0 (List.replicate 8 (sampleRecord v now) ++ rest) s) :
    ∃ u os t, u.now = now ∧ u.out.frame = .none ∧ SameBlock s u ∧ RunShows 8 s os t ∧
      os.map (·.frame) = List.replicate 3 .none ++ (callChip Config.hsm v u).out.frame :: List.replicate 4 .none ∧
      SameBlock (callChip Config.hsm v u) t ∧ InRun v 8 rest t ∧ t.erPrev = v := by
  obtain ⟨os₁, s₁, hshows₁, hframes₁, hblock₁, hrun₁, -⟩ := quiet_samples 3 (k := 0) h (by omega)
  obtain ⟨u, s₂, hnow, hnone, hblock, hstep, hframe, hblock₂, hrun₂, hprev₂⟩ := mid_sample hrun₁ rfl
  obtain ⟨os₃, t, hshows₃, hframes₃, hblock₃, hrun₃, hprev₃⟩ := quiet_samples 4 hrun₂ (by omega)
  refine ⟨u, _, t, hnow, hnone, hblock₁.trans hblock, hshows₁.trans (RunShows.cons hstep hshows₃), ?_,
    hblock₂.trans hblock₃, hrun₃, hprev₃ hprev₂⟩
  rw [List.map_append, List.map_cons, hframes₁, hframe, hframes₃]

/-! The two chips of a bit. -/

/-- A run of any level begins after a whole chip period. -/
theorem begins_of_whole_period {v w : Bool} {ins : List InRecord} {s : State} (h : InRun v 8 ins s)
    (hprev : s.erPrev = v) : InRun w 0 ins s :=
  ⟨h.direct, h.inputs, phase_zero (Or.inr (erRun_of_whole_period h hprev))⟩

theorem chipRecords_cons (v : Bool) (chips : List Bool) (now : Time) :
    chipRecords Config.hsm (v :: chips) now
      = List.replicate 8 (sampleRecord v now) ++ chipRecords Config.hsm chips now := rfl

/-- The sixteen samples of a bit b whose second chip is w: the bit is handed on at the twelfth, in a state u that
differs from s in the decoder's register only. -/
theorem bit_period {b w : Bool} {now : Time} {rest : List InRecord} {s : State}
    (h : InRun b 0 (List.replicate 8 (sampleRecord b now) ++ (List.replicate 8 (sampleRecord w now) ++ rest)) s)
    (hld : s.ldState = levelState (!b)) :
    ∃ u os t, u.now = now ∧ u.out.frame = .none ∧ SameBlock (s.setLd (levelState w)) u ∧ RunShows 16 s os t ∧
      os.map (·.frame) = List.replicate 11 .none ++ (fsBit Config.hsm b u).out.frame :: List.replicate 4 .none ∧
      SameBlock (fsBit Config.hsm b u) t ∧ InRun w 8 rest t ∧ t.erPrev = w := by
  obtain ⟨u₁, os₁, s₁, -, hnone₁, hblock₁, hshows₁, hframes₁, hafter₁, hrun₁, hprev₁⟩ := chip_period h
  obtain ⟨u₂, os₂, t, hnow, hnone₂, hblock₂, hshows₂, hframes₂, hafter₂, hrun₂, hprev₂⟩ :=
    chip_period (v := w) (begins_of_whole_period hrun₁ hprev₁)
  have hfirst : callChip Config.hsm b u₁ = u₁.setLd (phaseB b) := callChip_first (hblock₁.ldState.trans hld)
  rw [hfirst] at hafter₁ hframes₁
  have hsecond : callChip Config.hsm w u₂ = fsBit Config.hsm b ((u₂.setLd (levelState w)).emitBit b) :=
    callChip_of_phaseB w (hblock₂.ldState.trans hafter₁.ldState)
  rw [hsecond] at hafter₂ hframes₂
  have hblock := ((hblock₁.setLd (levelState w)).trans (hafter₁.setLd (levelState w))).trans
    (hblock₂.setLd (levelState w))
  refine ⟨(u₂.setLd (levelState w)).emitBit b, _, t, hnow, hnone₂,
    ⟨hblock.ldState, hblock.fsShreg, hblock.total, hblock.invalid, hblock.dev⟩, hshows₁.trans hshows₂, ?_,
    hafter₂, hrun₂, hprev₂⟩
  rw [List.map_append, hframes₁, hframes₂, State.setLd_out, hnone₁]
  rfl

/-! The bits of a frame. -/

/-- From s the frame f has been handed to FV at time `now`, in the state u, and t keeps what FV left. -/
def HandedOn (f : Frame) (now : Time) (s t : State) : Prop :=
  ∃ u, u.now = now ∧ SameBlock ((s.setLd .lowA).setShreg 0) u ∧ SameBlock (fvFrame Config.hsm f u) t

/-- The records of the n low bits of a frame, with the levels of the line in between (R136). -/
def lowBitRecords (f : Frame) (n : Nat) (now : Time) : List InRecord :=
  chipRecords Config.hsm (encChips (lowBits f n)) now

theorem lowBitRecords_succ (f : Frame) (n : Nat) (now : Time) :
    lowBitRecords f (n + 1) now =
      List.replicate 8 (sampleRecord (f.getLsbD n) now) ++
        (List.replicate 8 (sampleRecord (levelBefore (lowBits f n)) now) ++ lowBitRecords f n now) := by
  rw [lowBitRecords, lowBits, encChips_cons, chipRecords_cons, chipRecords_cons]
  rfl

/-- The samples of the n + 1 low bits of a frame, when the bits above stand in the shift register. -/
theorem low_bits_stream {f : Frame} (hsync : syncOf f = Config.hsm.syncPattern) (now : Time) (rest : List InRecord)
    (n : Nat) {s : State} (h : InRun (f.getLsbD n) 0 (lowBitRecords f (n + 1) now ++ rest) s)
    (hld : s.ldState = levelState (!f.getLsbD n)) (hshreg : s.fsShreg = f >>> (n + 1)) :
    ∃ os t, RunShows (16 * (n + 1)) s os t ∧
      os.map (·.frame) = List.replicate (16 * n + 11) .none ++ verdict Config.hsm f :: List.replicate 4 .none ∧
      HandedOn f now s t ∧ InRun false 8 rest t ∧ t.erPrev = false := by
  induction n generalizing s with
  | zero =>
    obtain ⟨u, os, t, hnow, hnone, hblock, hshows, hframes, hafter, hrun, hprev⟩ := bit_period h hld
    have hlast := fsBit_last hsync (hblock.fsShreg.trans hshreg)
    rw [hlast] at hafter hframes
    rw [fvFrame_out_frame] at hframes
    exact ⟨os, t, hshows, hframes,
      ⟨u.setShreg 0, hnow, ⟨hblock.ldState, rfl, hblock.total, hblock.invalid, hblock.dev⟩, hafter⟩, hrun, hprev⟩
  | succ n ih =>
    rw [lowBitRecords_succ, List.append_assoc, List.append_assoc] at h
    obtain ⟨u, os, t, hnow, hnone, hblock, hshows, hframes, hafter, hrun, hprev⟩ := bit_period h hld
    have hinner := fsBit_inner (hblock.fsShreg.trans hshreg)
    rw [hinner] at hafter hframes
    obtain ⟨os', v, hshows', hframes', ⟨w, hnow', hblock', hafter'⟩, hrun', hprev'⟩ :=
      ih (begins_of_whole_period hrun hprev) (hafter.ldState.trans hblock.ldState) hafter.fsShreg
    refine ⟨os ++ os', v, ?shows, ?frames, ⟨w, hnow', ?block, hafter'⟩, hrun', hprev'⟩
    case shows =>
      rw [Nat.mul_succ, Nat.add_comm]
      exact hshows.trans hshows'
    case frames =>
      have hsilent : List.replicate 11 FrameOutcome.none ++ .none :: List.replicate 4 .none
          = List.replicate 16 .none := rfl
      rw [List.map_append, hframes, hframes', State.setShreg_out, hnone, hsilent, ← List.append_assoc,
        List.replicate_append_replicate, Nat.mul_succ, Nat.add_right_comm, Nat.add_comm 16]
    case block =>
      have hkept : SameBlock ((s.setLd .lowA).setShreg 0) ((t.setLd .lowA).setShreg 0) :=
        ⟨rfl, rfl, hafter.total.trans hblock.total, hafter.invalid.trans hblock.invalid, hafter.dev.trans hblock.dev⟩
      exact hkept.trans hblock'

/-- What FV leaves of a frame: its count, and its update at the time of the samples if it is valid (R178, R179). -/
theorem HandedOn.result {f : Frame} {now : Time} {s t : State} (h : HandedOn f now s t) :
    t.ldState = .lowA ∧ t.fsShreg = 0 ∧ t.cntTotal = s.cntTotal + 1 ∧
    (frameValid Config.hsm f = true → t.cntInvalid = s.cntInvalid ∧
      (t.dev.read (serialOf f)).valid = true ∧ (t.dev.read (serialOf f)).lastRawState = statusOf f ∧
      (t.dev.read (serialOf f)).lastUpdateTime = now ∧
      ∀ b, b ≠ serialOf f → t.dev.read b = s.dev.read b) ∧
    (frameValid Config.hsm f = false → t.cntInvalid = s.cntInvalid + 1 ∧ t.dev = s.dev) := by
  obtain ⟨u, hnow, hu, ht⟩ := h
  obtain ⟨-, -, hld, hshreg, -, -⟩ := fvFrame_keeps Config.hsm f u
  have htotal : t.cntTotal = s.cntTotal + 1 := by rw [ht.total, fvFrame_cntTotal, hu.total]; rfl
  refine ⟨ht.ldState.trans (hld.trans hu.ldState), ht.fsShreg.trans (hshreg.trans hu.fsShreg), htotal,
    fun hvalid => ?valid, fun hinvalid => ?invalid⟩
  case valid =>
    have hfv := fvFrame_of_valid hvalid u
    have hcount : t.cntInvalid = s.cntInvalid := by rw [ht.invalid, hfv, opUpdate_eq]; exact hu.invalid
    rw [hfv] at ht
    rw [ht.dev, opUpdate_read_same]
    refine ⟨hcount, sighted_valid _, rfl, hnow, fun b hb => ?_⟩
    rw [opUpdate_read_other _ _ _ hb]
    exact congrArg (·.read b) hu.dev
  case invalid =>
    have hfv := fvFrame_of_invalid hinvalid u
    rw [hfv] at ht
    exact ⟨ht.invalid.trans (congrArg (· + 1) hu.invalid), ht.dev.trans hu.dev⟩

/-- Settles O59: the first bit of a frame with the pattern is a 1, and its bits pass through the register's window. -/
theorem frameStreamIsDecoded : Obligations.FrameStreamIsDecoded := by
  unfold Obligations.FrameStreamIsDecoded
  intro f now rest s hsync hd hld hshreg hstart hinputs
  have hone : f.getLsbD 63 = true := getLsbD_63_of_sync hsync
  rw [frameRecords, frameBits_eq_lowBits] at hinputs
  have hbegins : InRun (f.getLsbD 63) 0 (lowBitRecords f 64 now ++ rest) s := by
    refine ⟨hd, hinputs, phase_zero (hstart.imp_left fun hprev => ?_)⟩
    rw [hprev, hone]
    decide
  obtain ⟨os, t, ⟨hend, hshow⟩, hframes, hhanded, hrun, hprev⟩ := low_bits_stream hsync now rest 63 hbegins
    (by rw [hld, hone]; rfl) (hshreg.trans (BitVec.ushiftRight_eq_zero (Nat.le_refl 64)).symm)
  obtain ⟨htld, htshreg, htotal, hvalid, hinvalid⟩ := hhanded.result
  refine ⟨?_, t, hend, hrun.inputs, hrun.direct, htld, htshreg, hprev, erRun_of_whole_period hrun hprev, htotal, hvalid,
    hinvalid⟩
  rw [hshow, hframes, List.append_assoc]
  rfl

end Sys2Proof.FrameStream
end

section
/-! The Device State Tracker: the flags and times UPDATE stores (R205, R206) and the decision to notify (R207, R208). -/

namespace Sys2Proof.DeviceTracker

open Sys2Proof Sys2Proof.Machine Sys2Proof.Feeding

/-! The flags and the alarm time. -/

/-- An unsighted device has no alarm (R201). -/
theorem sighted_alarm (e : DevEntry) : (sighted e).alarm = (e.valid && e.alarm) := by
  cases h : e.valid
  · rw [sighted_of_unseen h]; rfl
  · rw [sighted_of_valid h]; rfl

/-- An unsighted device has no alarm time (R201, D17). -/
theorem sighted_lastAlarmTime (e : DevEntry) : (sighted e).lastAlarmTime = if e.valid then e.lastAlarmTime else 0 := by
  cases h : e.valid
  · rw [sighted_of_unseen h]; rfl
  · rw [sighted_of_valid h]; rfl

/-- Settles O49: the fields of the tracked entry, and UPDATE writes only the table and the notification. -/
theorem updateSetsFlagsAndAlarmTime : Obligations.UpdateSetsFlagsAndAlarmTime := by
  unfold Obligations.UpdateSetsFlagsAndAlarmTime
  intro a st s wasAlarm oldTime
  refine ⟨_, exec_eq (.update a st) s, opUpdate_valid_same _ a st s, ?tamper, ?battery, ?time,
    Frames.opUpdate_keeps Config.hsm a st s⟩
  case tamper => rw [opOf, opUpdate_read_same]; exact bne_iff_ne
  case battery => rw [opOf, opUpdate_read_same]; exact bne_iff_ne
  case time =>
    rw [opOf, opUpdate_read_same, trackEntry_lastAlarmTime, sighted_alarm, sighted_lastAlarmTime]
    exact if_congr (by rw [Bool.and_eq_true, Bool.not_eq_true']) rfl rfl

/-! The decision to notify. -/

theorem opUpdate_out_ntf (c : Config) (a : Serial) (st : Status) (s : State) :
    (opUpdate c a st s).out.ntf =
      if notifies c st s.now (s.dev.read a) then some (entryWord a ((opUpdate c a st s).dev.read a))
      else s.out.ntf := by
  rw [opUpdate_read_same, opUpdate_eq]

/-- The clauses of R207: a new device, a changed status, or the heartbeat, on unbounded integers. -/
theorem notifies_hsm_iff (st : Status) (now : Time) (e : DevEntry) :
    notifies Config.hsm st now e = true ↔
      e.valid = false ∨ st ≠ e.lastRawState ∨ (now.toNat : Int) - (e.lastUpdateTime.toNat : Int) > 60 := by
  cases h : e.valid
  · simp [notifies, h]
  · simp only [notifies, h, sighted_of_valid h, heartbeatDue, Bool.or_eq_true, Bool.not_true, Bool.false_eq_true,
      false_or, bne_iff_ne, decide_eq_true_eq, Bool.true_eq_false]
    rfl

/-- Settles O50: the notification follows `notifies`, and its word is that of the entry stored. -/
theorem updateNotifiesOnChangeOrHeartbeat : Obligations.UpdateNotifiesOnChangeOrHeartbeat := by
  unfold Obligations.UpdateNotifiesOnChangeOrHeartbeat
  intro a st s hnone
  have hntf := opUpdate_out_ntf Config.hsm a st s
  rw [← notifies_hsm_iff]
  refine ⟨_, exec_eq (.update a st) s, fun h => ?notified, fun h => ?silent⟩
  case notified => rw [opOf, hntf, if_pos h]; rfl
  case silent => rw [opOf, hntf, if_neg h, hnone]

/-- No alarm bits lie above `BASELINE_UNSEEN`, so that a first sighting takes them as the baseline (R211). -/
theorem trackEntry_of_unseen (c : Config) (st : Status) (now : Time) {e : DevEntry} (h : e.valid = false) :
    (trackEntry c st now (sighted e)).alarmBaseline = alarmBits c st ∧
    (trackEntry c st now (sighted e)).alarm = false := by
  have hlower : lowerBaseline (alarmBits c st) (sighted e).alarmBaseline = alarmBits c st := by
    have hmax := (alarmBits c st).isLt
    rw [sighted_alarmBaseline, h]
    apply BitVec.eq_of_toNat_eq
    rw [lowerBaseline_toNat]
    exact Nat.min_eq_left (Nat.le_of_lt_succ hmax)
  refine ⟨by rw [trackEntry_alarmBaseline, hlower], ?_⟩
  rw [trackEntry_alarm, hlower, ← Bool.not_eq_true, alarmFlag_eq_true_iff]
  exact Nat.lt_irrefl _

/-- Settles O51: a new device notifies, with the flags of an entry whose alarm is off. -/
theorem firstSightingNotifiesWithoutAlarm : Obligations.FirstSightingNotifiesWithoutAlarm := by
  unfold Obligations.FirstSightingNotifiesWithoutAlarm
  intro a st s hunseen
  obtain ⟨hbaseline, halarm⟩ := trackEntry_of_unseen Config.hsm st s.now hunseen
  rw [← opUpdate_read_same Config.hsm a st s] at hbaseline halarm
  have hntf := opUpdate_out_ntf Config.hsm a st s
  rw [if_pos ((notifies_hsm_iff st s.now _).2 (Or.inl hunseen))] at hntf
  obtain ⟨hserial, halarmBit, -, -⟩ := Output.notificationWordLayout a
    ((opUpdate Config.hsm a st s).dev.read a).alarm ((opUpdate Config.hsm a st s).dev.read a).tamper
    ((opUpdate Config.hsm a st s).dev.read a).batteryLow
  exact ⟨_, exec_eq (.update a st) s, halarm, hbaseline, _, hntf, hserial, halarmBit.trans halarm⟩

/-- Settles O52: after an UPDATE its device is known, with that status and time, so that only the heartbeat can
notify. -/
theorem repeatedUpdateIsThrottled : Obligations.RepeatedUpdateIsThrottled := by
  unfold Obligations.RepeatedUpdateIsThrottled
  intro a st s t u ht hread hnone
  obtain rfl := Stepping.eq_opOf_of_exec ht
  rw [opOf, opUpdate_read_same] at hread
  have hnotifies : notifies Config.hsm st u.now (u.dev.read a) = true ↔
      (u.now.toNat : Int) - (s.now.toNat : Int) > 60 := by
    rw [notifies_hsm_iff, hread, trackEntry_valid, sighted_valid, trackEntry_lastRawState, trackEntry_lastUpdateTime]
    simp
  refine ⟨_, exec_eq (.update a st) u, ?_⟩
  rw [← hnotifies, opOf, opUpdate_out_ntf, hnone]
  by_cases h : notifies Config.hsm st u.now (u.dev.read a) = true
  · rw [if_pos h]
    exact iff_of_true rfl h
  · rw [if_neg h]
    exact iff_of_false Bool.false_ne_true h

/-! The worked example of R213. -/

theorem opOf_update_read_same (a : Serial) (st : Status) (s : State) :
    ((opOf (.update a st) s).dev.read a) = trackEntry Config.hsm st s.now (sighted (s.dev.read a)) :=
  opUpdate_read_same Config.hsm a st s

/-- Settles O53: the baselines are 0x20, then 0x10 and 0x10 again, and only the last status lies above its own. -/
theorem hysteresisIsNumeric : Obligations.HysteresisIsNumeric := by
  unfold Obligations.HysteresisIsNumeric
  intro a s hunseen t₂ t₃
  simp only [t₂, t₃, feed_cons_state, feed_nil, opOf_update_read_same, State.setOut_dev, trackEntry_alarm,
    trackEntry_alarmBaseline, sighted_alarmBaseline, trackEntry_valid, sighted_valid, hunseen, if_true,
    Bool.false_eq_true, if_false]
  decide

end Sys2Proof.DeviceTracker
end

section
/-! The Frame Validator: what a valid frame does (R178), and what the division loop computes (R182 to R187). -/

namespace Sys2Proof.FrameValidator

open Sys2Proof Sys2Proof.Machine Sys2Proof.FrameSync

/-! A valid frame. -/

/-- Settles O37: both operations run `FV_FRAME`, whose valid case ends in the UPDATE of the frame's fields. -/
theorem validFrameUpdatesItsDevice : Obligations.ValidFrameUpdatesItsDevice := by
  unfold Obligations.ValidFrameUpdatesItsDevice
  intro f i s hi hrem
  have hvalid : frameValid Config.hsm f = true := beq_iff_eq.2 hrem
  refine ⟨_, exec_frame hi s, ?update, ?fields⟩
  case update => rw [fvFrame_of_valid hvalid, exec_eq]; rfl
  case fields =>
    rw [fvFrame_of_valid hvalid, opUpdate_eq]
    exact ⟨rfl, rfl, rfl, rfl⟩

/-! The zero dividend. -/

theorem divLoop_zero (p : BitVec 64) (fuel : Nat) (div : BitVec 64) : divLoop p fuel 0 div = 0 := by
  induction fuel generalizing div with
  | zero => rfl
  | succ fuel ih =>
    by_cases h : p ≤ div
    · rw [divLoop_step h, divStep_zero, ih]
    · exact divLoop_done h _ 0

theorem dividend_append_zero (pattern : BitVec 16) : dividend (pattern ++ (0 : BitVec 48)) = 0 := by
  have hmask : (0x0000FFFFFFFFFFFF : BitVec 64) = (0 : BitVec 16) ++ (0xFFFFFFFFFFFF : BitVec 48) := rfl
  rw [dividend, hmask, BitVec.and_append]
  simp

theorem frameValid_append_zero (c : Config) : frameValid c (c.syncPattern ++ (0 : BitVec 48)) = true := by
  rw [frameValid, remainder, dividend_append_zero, divLoop_zero]
  rfl

/-- Settles O45: the masked payload is zero, and the loop keeps a zero dividend whatever the polynomial. -/
theorem zeroPayloadIsValid : Obligations.ZeroPayloadIsValid := by
  unfold Obligations.ZeroPayloadIsValid
  refine ⟨frameValid_append_zero, fun s => ⟨_, exec_eq (.frameDef 0xFFFE000000000000) s, ?_⟩⟩
  have hvalid : frameValid Config.hsm 0xFFFE000000000000 = true := frameValid_append_zero Config.hsm
  rw [opOf, fvFrame_of_valid hvalid, opUpdate_eq]
  exact ⟨rfl, rfl⟩

/-- Settles O46: the loop, evaluated on the six rows. -/
theorem remaindersOfTheSpecVectors : Obligations.RemaindersOfTheSpecVectors := by
  unfold Obligations.RemaindersOfTheSpecVectors
  decide +kernel

/-! Schoolbook division, a step at a time (R182). -/

/-- One step of schoolbook division: `P << j` is subtracted when bit 16 + j is set. -/
def schoolStep (p : BitVec 64) (j : Nat) (v : BitVec 64) : BitVec 64 :=
  if v.getLsbD (16 + j) then v ^^^ (p <<< j) else v

theorem schoolbook_succ (p : BitVec 64) (j : Nat) (v : BitVec 64) :
    schoolbook p (j + 1) v = schoolbook p j (schoolStep p j v) := rfl

/-! The shifted divisors of a 17-bit polynomial. -/

theorem dividend_clearFrom (f : Frame) : ClearFrom 48 (dividend f) := by
  intro i hi
  have hmask : ClearFrom 48 0x0000FFFFFFFFFFFF := clearFrom_of_toNat_lt (by decide)
  rw [dividend, BitVec.getLsbD_and, hmask i hi, Bool.and_false]

theorem polyWord_toNat (p : Poly) : (polyWord p).toNat = p.toNat := by
  have := p.isLt
  rw [polyWord, BitVec.toNat_setWidth]
  omega

theorem polyWord_clearFrom (p : Poly) : ClearFrom 17 (polyWord p) :=
  clearFrom_of_toNat_lt (by rw [polyWord_toNat]; exact p.isLt)

theorem shifted_clearFrom (p : Poly) (k : Nat) : ClearFrom (17 + k) (polyWord p <<< k) := by
  intro i hi
  rw [BitVec.getLsbD_shiftLeft, polyWord_clearFrom p (i - k) (by omega), Bool.and_false]

theorem toNat_shifted (p : Poly) {k : Nat} (hk : k ≤ 47) : (polyWord p <<< k).toNat = p.toNat * 2 ^ k := by
  rw [BitVec.toNat_shiftLeft, polyWord_toNat, Nat.shiftLeft_eq, Nat.mod_eq_of_lt]
  calc p.toNat * 2 ^ k < 2 ^ 17 * 2 ^ k := Nat.mul_lt_mul_of_pos_right p.isLt (Nat.two_pow_pos k)
    _ = 2 ^ (17 + k) := (Nat.pow_add 2 17 k).symm
    _ ≤ 2 ^ 64 := Nat.pow_le_pow_right (by decide) (by omega)

theorem polyWord_le_shifted (p : Poly) {k : Nat} (hk : k ≤ 47) : polyWord p ≤ polyWord p <<< k := by
  rw [BitVec.le_def, toNat_shifted p hk, polyWord_toNat]
  exact Nat.le_mul_of_pos_right _ (Nat.two_pow_pos k)

theorem shifted_ushiftRight (p : Poly) {k : Nat} (hk : k + 1 ≤ 47) :
    (polyWord p <<< (k + 1)) >>> 1 = polyWord p <<< k := by
  apply BitVec.eq_of_toNat_eq
  rw [BitVec.toNat_ushiftRight, toNat_shifted p hk, toNat_shifted p (by omega), Nat.shiftRight_eq_div_pow, Nat.pow_succ,
    ← Nat.mul_assoc]
  exact Nat.mul_div_cancel _ (by decide)

theorem divLoop_shifted_succ (p : Poly) {j : Nat} (hj : j + 1 ≤ 47) (n : Nat) (v : BitVec 64) :
    divLoop (polyWord p) (n + 1) v (polyWord p <<< (j + 1))
      = divLoop (polyWord p) n (divStep v (polyWord p <<< (j + 1))) (polyWord p <<< j) := by
  rw [divLoop_step (polyWord_le_shifted p hj), shifted_ushiftRight p hj]

/-! The divisors of a polynomial with bit 16 set (R13). -/

section
variable {p : Poly} (hp : p.getLsbD 16 = true)
include hp

theorem le_toNat_of_top_bit : 2 ^ 16 ≤ p.toNat := Nat.ge_two_pow_of_testBit hp

theorem not_polyWord_le_half : ¬ polyWord p ≤ (polyWord p <<< 0) >>> 1 := by
  have hpos := le_toNat_of_top_bit hp
  rw [BitVec.shiftLeft_zero, BitVec.le_def, BitVec.toNat_ushiftRight, polyWord_toNat, Nat.shiftRight_eq_div_pow]
  omega

theorem getLsbD_shifted_top {k : Nat} (hk : k ≤ 47) : (polyWord p <<< k).getLsbD (16 + k) = true := by
  rw [BitVec.getLsbD_shiftLeft, Nat.add_sub_cancel, polyWord, BitVec.getLsbD_setWidth, hp]
  simp [show 16 + k < 64 by omega]

theorem msb_shifted {k : Nat} (hk : k ≤ 47) : msb (polyWord p <<< k) = some (16 + k) :=
  (msb_eq_some_iff _ _).2 ⟨getLsbD_shifted_top hp hk, fun j hj => shifted_clearFrom p k j (by omega)⟩

/-! The loop body is a step of schoolbook division (R182). -/

/-- While the value has no bit above the divisor's highest one, equal highest bits mean that bit 16 + j is set. -/
theorem divStep_eq_schoolStep {j : Nat} (hj : j ≤ 47) {v : BitVec 64} (hv : ClearFrom (17 + j) v) :
    divStep v (polyWord p <<< j) = schoolStep (polyWord p) j v := by
  have hiff : msb v = msb (polyWord p <<< j) ↔ v.getLsbD (16 + j) = true := by
    rw [msb_shifted hp hj, msb_eq_some_iff]
    exact and_iff_left fun i hi => hv i (by omega)
  unfold schoolStep
  by_cases hbit : v.getLsbD (16 + j) = true
  · have hne : v ≠ 0 := by
      rintro rfl
      simp at hbit
    rw [divStep_of_msb_eq hne (hiff.2 hbit), if_pos hbit]
  · rw [divStep_of_msb_ne (mt hiff.1 hbit), if_neg hbit]

theorem schoolStep_clearFrom {j : Nat} (hj : j ≤ 47) {v : BitVec 64} (hv : ClearFrom (17 + j) v) :
    ClearFrom (16 + j) (schoolStep (polyWord p) j v) := by
  unfold schoolStep
  rw [Nat.add_right_comm 16 1 j] at hv
  by_cases hbit : v.getLsbD (16 + j) = true
  · rw [if_pos hbit]
    refine (hv.xor ((shifted_clearFrom p j).mono (by omega))).pred ?_
    rw [BitVec.getLsbD_xor, hbit, getLsbD_shifted_top hp hj]
    rfl
  · rw [if_neg hbit]
    exact hv.pred (eq_false_of_ne_true hbit)

theorem schoolbook_clearFrom {n : Nat} (hn : n ≤ 48) {v : BitVec 64} (hv : ClearFrom (16 + n) v) :
    ClearFrom 16 (schoolbook (polyWord p) n v) := by
  induction n generalizing v with
  | zero => exact hv
  | succ n ih =>
    rw [schoolbook_succ]
    exact ih (by omega) (schoolStep_clearFrom hp (by omega) (hv.mono (by omega)))

/-! The loop (R185). -/

theorem divLoop_shifted_zero (n : Nat) (v : BitVec 64) :
    divLoop (polyWord p) (n + 1) v (polyWord p <<< 0) = divStep v (polyWord p <<< 0) := by
  rw [divLoop_step (polyWord_le_shifted p (by omega)), divLoop_done (not_polyWord_le_half hp)]

theorem divCount_shifted {j n : Nat} (hj : j ≤ 47) (hn : j < n) :
    divCount (polyWord p) n (polyWord p <<< j) = j + 1 := by
  induction j generalizing n with
  | zero =>
    obtain ⟨n, rfl⟩ : ∃ m, n = m + 1 := ⟨n - 1, by omega⟩
    rw [divCount_step (polyWord_le_shifted p hj), divCount_done (not_polyWord_le_half hp)]
  | succ j ih =>
    obtain ⟨n, rfl⟩ : ∃ m, n = m + 1 := ⟨n - 1, by omega⟩
    rw [divCount_step (polyWord_le_shifted p hj), shifted_ushiftRight p hj, ih (by omega) (by omega)]

/-- The loop does not depend on its bound once that covers the shifts of the divisor. -/
theorem divLoop_bound {j m n : Nat} (hj : j ≤ 47) (hm : j < m) (hn : j < n) (v : BitVec 64) :
    divLoop (polyWord p) m v (polyWord p <<< j) = divLoop (polyWord p) n v (polyWord p <<< j) := by
  obtain ⟨m, rfl⟩ : ∃ l, m = l + 1 := ⟨m - 1, by omega⟩
  obtain ⟨n, rfl⟩ : ∃ l, n = l + 1 := ⟨n - 1, by omega⟩
  induction j generalizing m n v with
  | zero => rw [divLoop_shifted_zero hp, divLoop_shifted_zero hp]
  | succ j ih =>
    obtain ⟨m, rfl⟩ : ∃ l, m = l + 1 := ⟨m - 1, by omega⟩
    obtain ⟨n, rfl⟩ : ∃ l, n = l + 1 := ⟨n - 1, by omega⟩
    rw [divLoop_shifted_succ p hj, divLoop_shifted_succ p hj]
    exact ih (by omega) _ m (by omega) n (by omega)

theorem divLoop_eq_schoolbook {j n : Nat} (hj : j ≤ 47) (hn : j < n) {v : BitVec 64} (hv : ClearFrom (17 + j) v) :
    divLoop (polyWord p) n v (polyWord p <<< j) = schoolbook (polyWord p) (j + 1) v := by
  obtain ⟨n, rfl⟩ : ∃ l, n = l + 1 := ⟨n - 1, by omega⟩
  induction j generalizing n v with
  | zero =>
    rw [divLoop_shifted_zero hp, divStep_eq_schoolStep hp hj hv]
    rfl
  | succ j ih =>
    obtain ⟨n, rfl⟩ : ∃ l, n = l + 1 := ⟨n - 1, by omega⟩
    have hstep := (schoolStep_clearFrom hp hj hv).mono (show 16 + (j + 1) ≤ 17 + j by omega)
    rw [divLoop_shifted_succ p hj, divStep_eq_schoolStep hp hj hv, ih (by omega) hstep n (by omega), ← schoolbook_succ]

theorem remainder_eq_schoolbook (f : Frame) : remainder p f = schoolbook (polyWord p) 32 (dividend f) :=
  divLoop_eq_schoolbook hp (j := 31) (by decide) (by decide) (dividend_clearFrom f)

end

/-- Settles O39: the divisor begins 31 places above the polynomial. -/
theorem divisionLoopRunsThirtyTwoTimes : Obligations.DivisionLoopRunsThirtyTwoTimes := by
  unfold Obligations.DivisionLoopRunsThirtyTwoTimes
  exact fun p hp => ⟨divCount_shifted hp (j := 31) (by decide) (by decide),
    fun n sum hn => divLoop_bound hp (j := 31) (by decide) (by omega) (by decide) sum⟩

/-- Settles O40: each body of the loop is a schoolbook step, and the steps clear the bits from 47 down to 16. -/
theorem divisionIsSchoolbookDivision : Obligations.DivisionIsSchoolbookDivision := by
  unfold Obligations.DivisionIsSchoolbookDivision
  intro p f hp
  refine ⟨remainder_eq_schoolbook hp f, ?_⟩
  rw [remainder_eq_schoolbook hp f]
  exact (schoolbook_clearFrom hp (n := 32) (by decide) (dividend_clearFrom f)).toNat_lt

end Sys2Proof.FrameValidator
end

section
/-! The verdict as polynomial arithmetic over GF(2) (R182): divisibility, the check field, and error detection (R183,
R184). -/

namespace Sys2Proof.FrameValidator

open Sys2Proof Sys2Proof.Machine Sys2Proof.FrameSync

/-! Schoolbook division is linear. -/

theorem schoolStep_xor (p : BitVec 64) (j : Nat) (v w : BitVec 64) :
    schoolStep p j (v ^^^ w) = schoolStep p j v ^^^ schoolStep p j w := by
  unfold schoolStep
  rw [BitVec.getLsbD_xor]
  cases v.getLsbD (16 + j) <;> cases w.getLsbD (16 + j)
  · rfl
  · exact BitVec.xor_assoc v w _
  · show v ^^^ w ^^^ p <<< j = v ^^^ p <<< j ^^^ w
    rw [BitVec.xor_assoc, BitVec.xor_comm w, ← BitVec.xor_assoc]
  · show v ^^^ w = v ^^^ p <<< j ^^^ (w ^^^ p <<< j)
    rw [BitVec.xor_comm w, BitVec.xor_assoc, ← BitVec.xor_assoc (p <<< j), BitVec.xor_self, BitVec.zero_xor]

theorem schoolbook_xor (p : BitVec 64) (n : Nat) (v w : BitVec 64) :
    schoolbook p n (v ^^^ w) = schoolbook p n v ^^^ schoolbook p n w := by
  induction n generalizing v w with
  | zero => rfl
  | succ n ih => rw [schoolbook_succ, schoolbook_succ, schoolbook_succ, schoolStep_xor, ih]

/-- A value below 2^16 is its own remainder. -/
theorem schoolbook_of_clearFrom (p : BitVec 64) (n : Nat) {v : BitVec 64} (hv : ClearFrom 16 v) :
    schoolbook p n v = v := by
  induction n with
  | zero => rfl
  | succ n ih => rw [schoolbook_succ, schoolStep, if_neg (by rw [hv _ (by omega)]; decide), ih]

/-! Multiples of the polynomial. -/

theorem gfMul_clearFrom (p : Poly) (n : Nat) (q : BitVec 64) : ClearFrom (16 + n) (gfMul (polyWord p) n q) := by
  induction n with
  | zero => exact fun i _ => BitVec.getLsbD_zero
  | succ n ih =>
    refine ClearFrom.xor ?_ (ih.mono (by omega))
    split
    · exact (shifted_clearFrom p n).mono (by omega)
    · exact fun i _ => BitVec.getLsbD_zero

/-- The product reads the n low bits of q only. -/
theorem gfMul_congr (p : BitVec 64) (n : Nat) {q q' : BitVec 64} (h : ∀ k, k < n → q.getLsbD k = q'.getLsbD k) :
    gfMul p n q = gfMul p n q' := by
  induction n with
  | zero => rfl
  | succ n ih => rw [gfMul, gfMul, h n (by omega), ih fun k hk => h k (by omega)]

/-- The highest bit of a product is that of the factor. -/
theorem getLsbD_gfMul_top {p : Poly} (hp : p.getLsbD 16 = true) {n : Nat} (hn : n ≤ 47) (q : BitVec 64) :
    (gfMul (polyWord p) (n + 1) q).getLsbD (16 + n) = q.getLsbD n := by
  rw [gfMul, BitVec.getLsbD_xor, gfMul_clearFrom p n q _ (Nat.le_refl _), Bool.xor_false]
  cases q.getLsbD n
  · exact BitVec.getLsbD_zero
  · exact getLsbD_shifted_top hp hn

/-- A multiple of the polynomial leaves no remainder. -/
theorem schoolbook_gfMul {p : Poly} (hp : p.getLsbD 16 = true) {n : Nat} (hn : n ≤ 48) (q : BitVec 64) :
    schoolbook (polyWord p) n (gfMul (polyWord p) n q) = 0 := by
  induction n with
  | zero => rfl
  | succ n ih =>
    have hstep : schoolStep (polyWord p) n (gfMul (polyWord p) (n + 1) q) = gfMul (polyWord p) n q := by
      rw [schoolStep, getLsbD_gfMul_top hp (by omega), gfMul]
      cases q.getLsbD n
      · exact BitVec.zero_xor
      · show polyWord p <<< n ^^^ gfMul (polyWord p) n q ^^^ polyWord p <<< n = gfMul (polyWord p) n q
        rw [BitVec.xor_comm (polyWord p <<< n), BitVec.xor_assoc, BitVec.xor_self, BitVec.xor_zero]
    rw [schoolbook_succ, hstep, ih (by omega)]

/-- The quotient of schoolbook division: bit j is set when step j subtracts. -/
def quotient (p : BitVec 64) : Nat → BitVec 64 → BitVec 64
  | 0, _ => 0
  | j + 1, v => (if v.getLsbD (16 + j) then BitVec.twoPow 64 j else 0) ||| quotient p j (schoolStep p j v)

theorem quotient_clearFrom (p : BitVec 64) (n : Nat) (v : BitVec 64) : ClearFrom n (quotient p n v) := by
  induction n generalizing v with
  | zero => exact fun i _ => BitVec.getLsbD_zero
  | succ n ih =>
    intro i hi
    rw [quotient, BitVec.getLsbD_or, ih _ i (by omega), Bool.or_false]
    split
    · rw [BitVec.getLsbD_twoPow]
      simp [show n ≠ i by omega]
    · exact BitVec.getLsbD_zero

theorem getLsbD_quotient_top (p : BitVec 64) {n : Nat} (hn : n < 64) (v : BitVec 64) :
    (quotient p (n + 1) v).getLsbD n = v.getLsbD (16 + n) := by
  rw [quotient, BitVec.getLsbD_or, quotient_clearFrom p n _ n (Nat.le_refl n), Bool.or_false]
  cases v.getLsbD (16 + n)
  · exact BitVec.getLsbD_zero
  · simp [hn]

theorem getLsbD_quotient_of_lt (p : BitVec 64) {n k : Nat} (hk : k < n) (v : BitVec 64) :
    (quotient p (n + 1) v).getLsbD k = (quotient p n (schoolStep p n v)).getLsbD k := by
  rw [quotient, BitVec.getLsbD_or]
  split
  · simp [BitVec.getLsbD_twoPow, show n ≠ k by omega]
  · simp

/-- Division with remainder. -/
theorem eq_gfMul_quotient_xor_schoolbook (p : BitVec 64) {n : Nat} (hn : n ≤ 64) (v : BitVec 64) :
    v = gfMul p n (quotient p n v) ^^^ schoolbook p n v := by
  induction n generalizing v with
  | zero => exact BitVec.zero_xor.symm
  | succ n ih =>
    have hdiv := ih (by omega) (schoolStep p n v)
    rw [schoolbook_succ, gfMul, getLsbD_quotient_top p (by omega),
      gfMul_congr p n fun k hk => getLsbD_quotient_of_lt p hk v, BitVec.xor_assoc, ← hdiv, schoolStep]
    cases v.getLsbD (16 + n)
    · exact BitVec.zero_xor.symm
    · show v = p <<< n ^^^ (v ^^^ p <<< n)
      rw [BitVec.xor_comm v, ← BitVec.xor_assoc, BitVec.xor_self, BitVec.zero_xor]

/-- The polynomial divides a value exactly when schoolbook division leaves no remainder. -/
theorem schoolbook_eq_zero_iff {p : Poly} (hp : p.getLsbD 16 = true) {n : Nat} (hn : n ≤ 48) (v : BitVec 64) :
    schoolbook (polyWord p) n v = 0 ↔ ∃ q, v = gfMul (polyWord p) n q := by
  constructor
  · intro h
    have hdiv := eq_gfMul_quotient_xor_schoolbook (polyWord p) (show n ≤ 64 by omega) v
    rw [h] at hdiv
    exact ⟨_, hdiv.trans BitVec.xor_zero⟩
  · rintro ⟨q, rfl⟩
    exact schoolbook_gfMul hp hn q

/-! The verdict. -/

/-- Both polynomials of a well-formed configuration have bit 16 (R13). -/
theorem selectPoly_top_bit {c : Config} (h : c.wf = true) (sof : BitVec 4) : (selectPoly c sof).getLsbD 16 = true := by
  obtain ⟨hdef, halt⟩ : c.polyDef.getLsbD 16 = true ∧ c.polyAlt.getLsbD 16 = true := by
    simp only [Config.wf, Bool.and_eq_true] at h
    tauto
  unfold selectPoly
  split
  · exact halt
  · exact hdef

theorem frameValid_iff_schoolbook {c : Config} (h : c.wf = true) (f : Frame) :
    frameValid c f = true ↔ schoolbook (polyWord (selectPoly c (sofOf f))) 32 (dividend f) = 0 := by
  rw [frameValid, remainder_eq_schoolbook (selectPoly_top_bit h _), beq_iff_eq]

/-- Settles O41: the loop is schoolbook division, which leaves zero exactly on the multiples. -/
theorem validExactlyWhenThePolynomialDivides : Obligations.ValidExactlyWhenThePolynomialDivides := by
  unfold Obligations.ValidExactlyWhenThePolynomialDivides
  intro c f h
  rw [frameValid_iff_schoolbook h, schoolbook_eq_zero_iff (selectPoly_top_bit h _) (by decide)]

theorem and_xor_distrib (f a b : BitVec 64) : f &&& (a ^^^ b) = (f &&& a) ^^^ (f &&& b) := by
  apply BitVec.eq_of_getLsbD_eq
  intro i _
  simp only [BitVec.getLsbD_and, BitVec.getLsbD_xor]
  cases f.getLsbD i <;> simp

theorem checkOf_eq_and (f : Frame) : (checkOf f).setWidth 64 = f &&& 0xFFFF := by
  apply BitVec.eq_of_toNat_eq
  have hmask : f.toNat &&& 0xFFFF = f.toNat % 2 ^ 16 := Nat.and_two_pow_sub_one_eq_mod f.toNat 16
  rw [BitVec.toNat_and, show (0xFFFF : BitVec 64).toNat = 0xFFFF from rfl, hmask]
  simp only [checkOf, BitVec.toNat_setWidth, BitVec.extractLsb'_toNat, Nat.shiftRight_zero]
  omega

/-- The dividend is the upper payload with the check field below it. -/
theorem dividend_eq_xor_check (f : Frame) :
    dividend f = (f &&& 0x0000FFFFFFFF0000) ^^^ (checkOf f).setWidth 64 := by
  rw [checkOf_eq_and, ← and_xor_distrib]
  rfl

theorem checkOf_clearFrom (f : Frame) : ClearFrom 16 ((checkOf f).setWidth 64) := by
  refine clearFrom_of_toNat_lt ?_
  have := (checkOf f).isLt
  rw [BitVec.toNat_setWidth]
  omega

/-- Settles O42: by linearity the remainder is the CRC of the upper payload with the check field added. -/
theorem validExactlyWhenTheCheckIsTheCrc : Obligations.ValidExactlyWhenTheCheckIsTheCrc := by
  unfold Obligations.ValidExactlyWhenTheCheckIsTheCrc
  intro c f h
  rw [frameValid_iff_schoolbook h, dividend_eq_xor_check, schoolbook_xor,
    schoolbook_of_clearFrom _ _ (checkOf_clearFrom f)]
  exact BitVec.xor_eq_zero_iff.trans eq_comm

/-! Error detection. -/

/-- The single bit k of a frame. -/
def oneBit (k : Nat) : Frame := ((1 <<< k : Nat) : BitVec 64)

/-- Neither polynomial divides a single bit of the payload (R183). -/
theorem schoolbook_oneBit_ne_zero (sof : BitVec 4) {k : Nat} (hk : k < 48) :
    schoolbook (polyWord (selectPoly Config.hsm sof)) 32 (oneBit k) ≠ 0 := by
  have hdef : ∀ k < 48, schoolbook (polyWord Config.hsm.polyDef) 32 (oneBit k) ≠ 0 := by decide +kernel
  have halt : ∀ k < 48, schoolbook (polyWord Config.hsm.polyAlt) 32 (oneBit k) ≠ 0 := by decide +kernel
  unfold selectPoly
  split
  · exact halt k hk
  · exact hdef k hk

theorem dividend_xor (f g : Frame) : dividend (f ^^^ g) = dividend f ^^^ dividend g := by
  simp only [dividend, BitVec.and_comm _ (0x0000FFFFFFFFFFFF : BitVec 64), and_xor_distrib]

theorem dividend_oneBit : ∀ k < 48, dividend (oneBit k) = oneBit k := by decide +kernel

/-- Settles O43: by linearity the remainder of the flipped frame is that of the flipped bit. -/
theorem singleBitErrorIsDetected : Obligations.SingleBitErrorIsDetected := by
  unfold Obligations.SingleBitErrorIsDetected
  intro f k hk hvalid hsame
  have hpoly : selectPoly Config.hsm (sofOf (f ^^^ oneBit k)) = selectPoly Config.hsm (sofOf f) :=
    congrArg (fun b : Bool => if b then Config.hsm.polyAlt else Config.hsm.polyDef) hsame
  rw [frameValid_iff_schoolbook rfl] at hvalid
  refine eq_false_of_ne_true fun hflip => schoolbook_oneBit_ne_zero (sofOf f) hk ?_
  have hzero := (frameValid_iff_schoolbook rfl (f ^^^ oneBit k)).1 hflip
  rw [hpoly, dividend_xor, dividend_oneBit k hk, schoolbook_xor, hvalid] at hzero
  exact BitVec.zero_xor.symm.trans hzero

/-- Division by a polynomial without bits below k keeps the value's bits below k. -/
theorem getLsbD_schoolbook_of_lt {p : BitVec 64} {k : Nat} (hp : ∀ i, i < k → p.getLsbD i = false) (n : Nat)
    {i : Nat} (hi : i < k) (v : BitVec 64) : (schoolbook p n v).getLsbD i = v.getLsbD i := by
  induction n generalizing v with
  | zero => rfl
  | succ n ih =>
    rw [schoolbook_succ, ih, schoolStep]
    split
    · rw [BitVec.getLsbD_xor, BitVec.getLsbD_shiftLeft, hp (i - n) (by omega), Bool.and_false, Bool.xor_false]
    · rfl

/-- The four lowest bits of the alternate polynomial are 0 (R13). -/
theorem polyAlt_low_nibble : ∀ i, i < 4 → (polyWord Config.hsm.polyAlt).getLsbD i = false := by decide

theorem getLsbD_dividend_of_lt (f : Frame) {i : Nat} (hi : i < 4) : (dividend f).getLsbD i = f.getLsbD i := by
  have hmask : ∀ i, i < 4 → (0x0000FFFFFFFFFFFF : BitVec 64).getLsbD i = true := by decide
  rw [dividend, BitVec.getLsbD_and, hmask i hi, Bool.and_true]

/-- Settles O44: the alternate polynomial leaves the low nibble of the dividend in the remainder. -/
theorem alternateFrameNeedsAZeroLowNibble : Obligations.AlternateFrameNeedsAZeroLowNibble := by
  unfold Obligations.AlternateFrameNeedsAZeroLowNibble
  intro f halt hnibble
  rw [← Bool.not_eq_true, frameValid_iff_schoolbook rfl, selectPoly, if_pos halt]
  refine fun hzero => hnibble (BitVec.eq_of_getLsbD_eq fun i hi => ?_)
  rw [BitVec.getLsbD_extractLsb', Nat.zero_add, ← getLsbD_dividend_of_lt f hi,
    ← getLsbD_schoolbook_of_lt polyAlt_low_nibble 32 hi, hzero]
  simp

end Sys2Proof.FrameValidator
end
